-- ==== Sys2Proof/Word.lean ====
section
/-! DEFINITION. The machine's unit of data: the 9-trit word (R1 of 00_scope.md), held as the
integer 0 to 19,682 that R2 reads it as, and the trit. -/

namespace Sys2Proof

/-- A 9-trit word, as its unsigned value `0 ≤ w < 3^9` (R1, R2; notation of 00_scope.md 5.3).
`+` and `-` on it are the spec's `+m` and `-m`, modulo 3^9. -/
abbrev Word := Fin 19683

/-- A ternary digit. -/
abbrev Trit := Fin 3

/-- The word congruent to `n` modulo 3^9. -/
def Word.ofNat (n : Nat) : Word := Fin.ofNat 19683 n

/-- The word congruent to the integer `z` modulo 3^9. -/
def Word.ofInt (z : Int) : Word := Fin.ofNat 19683 (z % 19683).toNat

end Sys2Proof
end

