-- ==== Sys2Proof/Syntax.lean ====
section
/-! DEFINITION. The instructions as syntax: one constructor per row of spec/opcode_table.json,
with the addressing modes of the current format and the operand forms of the instructions below
the frontier. -/

namespace Sys2Proof

/-- A register number, 0 (`r0`, `sp`) to 8 (`r8`, `pc`) (R10 to R12 of 10_state.md). -/
abbrev Reg := Fin 9

/-- The register that is the program counter (R11, R13 of 10_state.md). -/
abbrev pcReg : Reg := 8

/-- The register suggested as stack pointer (R14 of 10_state.md). -/
abbrev spReg : Reg := 0

/-- The five addressing modes of `store` and `load` (R53, R72 to R76). The displacement word of
indexed mode belongs to the instruction. -/
inductive Mode where
  /-- `m = 22`, written `x` -/
  | register
  /-- `m = 12`, written `*x` -/
  | indirect
  /-- `m = 11`, written `*x++` -/
  | autoInc
  /-- `m = 10`, written `*--x` -/
  | autoDec
  /-- `m = 02`, written `x->disp` -/
  | indexed (disp : Word)
  deriving DecidableEq, Repr

/-- The suffix of a below-frontier mnemonic (R102 of 42_legacy_operands.md). -/
inductive Suffix where
  /-- no suffix -/
  | plain
  /-- `+`: autoincrement after use -/
  | inc
  /-- `-`: autodecrement before use -/
  | dec
  deriving DecidableEq, Repr

/-- The three operand forms below the frontier (R101 of 42_legacy_operands.md). -/
inductive Operand where
  /-- a register -/
  | reg (r : Reg)
  /-- `*r`, the word whose address is in `r` -/
  | star (r : Reg)
  /-- `=k`, the number itself, carried as a word (R103) -/
  | const (k : Word)
  deriving DecidableEq, Repr

/-- The 2-trit count field of a shift (R108, R120); `00` means 9. -/
abbrev CountField := Fin 9

/-- The instructions. `store`, `load`, `loadi` are the current format (R90 to R92); the others are
the abstract terms of R100 and R130. Terms that R102, R104 and R108 refuse can be written here;
`Instr.wellFormed` tells them apart. -/
inductive Instr where
  | store (r : Reg) (m : Mode) (x : Reg)
  | load (r : Reg) (m : Mode) (x : Reg)
  | loadi (r : Reg) (k : Fin 81)
  | add (a : Suffix) (src dst : Operand)
  | sub (a : Suffix) (src dst : Operand)
  | addc (a : Suffix) (src dst : Operand)
  | subb (a : Suffix) (src dst : Operand)
  | sl (a : Suffix) (n : CountField) (dst : Operand)
  | sru (a : Suffix) (n : CountField) (dst : Operand)
  | srs (a : Suffix) (n : CountField) (dst : Operand)
  | beq (target : Word)
  | bne (target : Word)
  | blts (target : Word)
  | bles (target : Word)
  | bges (target : Word)
  | bgts (target : Word)
  | bltu (target : Word)
  | bleu (target : Word)
  | bgeu (target : Word)
  | bgtu (target : Word)
  | bpos (target : Word)
  | bnpos (target : Word)
  | bneg (target : Word)
  | bnneg (target : Word)
  | bvr (target : Word)
  | bvs (target : Word)
  deriving DecidableEq, Repr

/-- The conditional branches (R132 to R147; R148: the list is complete). -/
def Instr.isBranch : Instr → Bool
  | .store _ _ _ | .load _ _ _ | .loadi _ _ => false
  | .add _ _ _ | .sub _ _ _ | .addc _ _ _ | .subb _ _ _ => false
  | .sl _ _ _ | .sru _ _ _ | .srs _ _ _ => false
  | .beq _ | .bne _ | .blts _ | .bles _ | .bges _ | .bgts _ => true
  | .bltu _ | .bleu _ | .bgeu _ | .bgtu _ => true
  | .bpos _ | .bnpos _ | .bneg _ | .bnneg _ | .bvr _ | .bvs _ => true

/-- The three instructions that have an encoding in the current format (R54). -/
def Instr.isCurrent : Instr → Bool
  | .store _ _ _ | .load _ _ _ | .loadi _ _ => true
  | .add _ _ _ | .sub _ _ _ | .addc _ _ _ | .subb _ _ _ => false
  | .sl _ _ _ | .sru _ _ _ | .srs _ _ _ => false
  | .beq _ | .bne _ | .blts _ | .bles _ | .bges _ | .bgts _ => false
  | .bltu _ | .bleu _ | .bgeu _ | .bgtu _ => false
  | .bpos _ | .bnpos _ | .bneg _ | .bnneg _ | .bvr _ | .bvs _ => false

end Sys2Proof
end

