-- ==== Sys2Proof/Config.lean ====
section
/-! DEFINITION. What the spec leaves to whoever instantiates the machine (00_scope.md section 4):
the open parameters, as plain data that State carries so that a statement about every state holds
for every choice of them; the values of the base machine; the launch values the model names; and
the one free value, the launch content of memory. -/

namespace Sys2Proof

/-- A register tag (R15; parameter P6 leaves its type open). DESIGN CHOICE (log entry 3): a tag is
a name, one of countably many. Nothing but copying and comparing is ever done with it. -/
abbrev Tag := Nat

/-- How many words of the instruction stream an OPMAP row's term takes (R130: one, unless an OPMAP
of two-word branches says so). -/
inductive RowWords where
  | one
  | two
  deriving DecidableEq, Repr

/-- One row of OPMAP (P8; R100, R130): the word `word`, fetched at address `addr` (at every
address when `none`), stands for `term`. Rows that name an address let a branch target be computed
from the instruction's own address (P12). -/
structure OpmapRow where
  word : Word
  addr : Option Word
  words : RowWords
  term : Instr
  deriving DecidableEq, Repr

/-- LEGACY_CONST (P11; R103): the values a `=k` operand may hold. -/
inductive LegacyConst where
  | any
  | only (ks : List Word)
  deriving DecidableEq, Repr

/-- One row of the storage map of a tagged machine (P6; R36): tag and address name a place. -/
structure TagRow where
  tag : Tag
  addr : Word
  place : Nat
  deriving DecidableEq, Repr

/-- The open parameters that are not already present elsewhere in the state (P5, HAS_TAGS, is
whether State holds tags; P7, RESET_PC, is `Config.resetPc`). -/
structure Params where
  /-- P8 and P12 -/
  opmap : List OpmapRow
  /-- P11 -/
  legacyConst : LegacyConst
  /-- P6: pairs not listed are places of their own -/
  places : List TagRow
  /-- P9: the places that hold no memory -/
  holes : List Nat
  /-- P10 -/
  haltPc : Option Word
  deriving DecidableEq, Repr

/-- The base machine's parameters: the empty OPMAP (P8), no hole (P9). -/
def Params.base : Params :=
  { opmap := [], legacyConst := .any, places := [], holes := [], haltPc := none }

/-- Whether `=k` may be written (P11). -/
def LegacyConst.allows : LegacyConst → Word → Bool
  | .any, _ => true
  | .only ks, k => ks.contains k

/-- The launch content of a place of storage (R33: what `MemRead` returns where nothing has been
written; R25, D9: arbitrary). A FREE VALUE (log entry 5): no proof can see what it is. -/
opaque Config.launchWord : Nat → Word

/-- RESET_PC (P7). DESIGN CHOICE (log entry 2), unsafe: the spec gives no value. -/
def Config.resetPc : Word := 0

/-- The value of r0 to r7 at reset. DESIGN CHOICE (log entry 1), unsafe: R25 gives none. -/
def Config.resetReg : Word := 0

/-- The value of each condition-code trit at reset. DESIGN CHOICE (log entry 1), unsafe. -/
def Config.resetTrit : Trit := 0

end Sys2Proof
end

