-- ==== Sys2Proof/Machine/State.lean ====
section
/-! DEFINITION. The machine's whole state as plain data (10_state.md), why a step can stop, and the
state after reset. -/

namespace Sys2Proof.Machine

/-- The condition codes, psw trits 02, 01, 00 (R17, R18). Trits 08 to 03 of the psw are no state
(R17, D17; log entry 4). -/
structure CC where
  /-- the sign trit (R19) -/
  s : Trit
  /-- the overflow trit (R20) -/
  v : Trit
  /-- the carry trit (R21) -/
  c : Trit
  deriving DecidableEq, Repr

/-- Storage: the words that have been written, or placed there by the launch, by place, places
strictly rising. On the untagged machine a place is an address (R23, R30). A place that is not
listed holds its launch content, `Config.launchWord` (log entry 5). -/
abbrev Memory := List (Nat × Word)

/-- The canonical form: places strictly rising. -/
def Memory.wf : Memory → Bool
  | [] => true
  | [_] => true
  | (p, _) :: (q, w) :: m => decide (p < q) && Memory.wf ((q, w) :: m)

/-- The state (10_state.md; R24: there is nothing else). -/
structure State where
  /-- x[0] to x[8]; x[8] is the pc (R10 to R13) -/
  regs : Vector Word 9
  /-- the register tags, present exactly on a machine that has them (HAS_TAGS, P5; R15) -/
  tags : Option (Vector Tag 9)
  /-- the condition codes (R17 to R22) -/
  cc : CC
  /-- storage (R23) -/
  mem : Memory
  /-- the open parameters, fixed for the machine (00_scope.md section 4) -/
  params : Params
  deriving DecidableEq, Repr

/-- Why a step has no next state (R150): faults of the model, final and unseen by the program. All
are the spec's own, and safe: nothing can be proved of a run that meets one. -/
inductive Fault where
  /-- raised by the step: the word `w` fetched at `A` has an unassigned `op` and no OPMAP row
  (R58); safe -/
  | unassignedOpcode (A w : Word)
  /-- raised by the step: `store` or `load` with `m` in 21, 20, 01, 00 (R59); safe -/
  | unassignedMode (A w : Word)
  /-- raised by the step's fetches and by the meanings that read or write memory: an access
  outside MEM_MAP (R33); impossible on the base machine; safe -/
  | unmappedAddress (a : Word)
  deriving DecidableEq, Repr

/-- Why the model declines an instruction: it is not a term of the language (U16, D13). -/
inductive Refusal where
  /-- raised by `exec` for an instruction without a meaning; safe -/
  | notModelled (mnemonic : String)
  /-- raised by the data terms: a suffix and two starred operands (R102); safe -/
  | suffixWithTwoStars
  /-- raised by the data terms: a suffix and no starred operand (R102); safe -/
  | suffixWithoutStar
  /-- raised by the shifts: a suffix (R108); safe -/
  | suffixOnShift
  /-- raised by `addc` and `subb`: the source is no register (R104, R113, R114); safe -/
  | sourceNotRegister
  /-- raised by the data terms and the shifts: a constant outside LEGACY_CONST (R103, P11); safe -/
  | constantOutsideSet
  deriving DecidableEq, Repr

/-- The base machine right after reset (R25, R170): no tags, memory with nothing listed, the base
parameters; the registers, the pc and the flags at the values that Config names (log entries 1
and 2: the spec gives none). -/
def State.reset : State :=
  { regs := (Vector.replicate 9 Config.resetReg).set 8 Config.resetPc
    tags := none
    cc := { s := Config.resetTrit, v := Config.resetTrit, c := Config.resetTrit }
    mem := []
    params := Params.base }

end Sys2Proof.Machine
end

