-- ==== Sys2Proof/Machine/Flags.lean ====
section
/-! DEFINITION. The readings of a word (R3 to R6), the adder (R110), and every result and condition
code: loads (R91, R92), arithmetic (R111 to R114), shifts (R121 to R123), branch conditions (R132
to R147). -/

namespace Sys2Proof.Machine

/-! ## Readings of a word -/

/-- The signed value (R3). -/
def sv (w : Word) : Int := if w.val ≤ 9841 then (w.val : Int) else (w.val : Int) - 19683

/-- The sign trit (R4): 0 zero, 1 positive, 2 negative. -/
def sign3 (w : Word) : Trit := if w.val = 0 then 0 else if w.val ≤ 9841 then 1 else 2

/-- Trit `i` of a word (00_scope.md 5.2). -/
def trit (w : Word) (i : Nat) : Trit := Fin.ofNat 3 (w.val / 3 ^ i)

/-- The trit-wise complement (R5; 00_scope.md 5.3). -/
def cmp3 (w : Word) : Word := Word.ofNat (19682 - w.val)

/-- Sign extension of a 4-trit field (R8). -/
def sext4 (f : Fin 81) : Word := if f.val ≤ 40 then Word.ofNat f.val else Word.ofNat (f.val + 19602)

/-- The balanced numeral of a word (R6): the word plus the bias, its trits read as -, 0, +. -/
def balanced (w : Word) : Word := w + 9841

/-- The count of a shift (R108, R120): the field, and 9 for the field `00`. -/
def shiftCount (n : CountField) : Nat := if n.val = 0 then 9 else n.val

/-! ## Condition codes of a loaded value -/

/-- `(sign3(v), 0, 0)` (R91, R92). -/
def loadCC (v : Word) : CC := { s := sign3 v, v := 0, c := 0 }

/-! ## The adder and the four arithmetic operations -/

/-- The adder's result word and carry out (R110). -/
def adder (a b : Word) (k : Nat) : Word × Trit :=
  (Word.ofNat (a.val + b.val + k), Fin.ofNat 3 ((a.val + b.val + k) / 19683))

/-- `v`: the exact signed result does not fit in a word (R110, D19). -/
def overflow (E : Int) : Trit := if E < -9841 ∨ 9841 < E then 1 else 0

/-- The result and the flags from the adder's output and the exact signed result (R110). -/
def report (rc : Word × Trit) (E : Int) : Word × CC :=
  (rc.1, { s := sign3 rc.1, v := overflow E, c := rc.2 })

/-- R111. `d` is the destination value, `s` the source value. -/
def addOp (d s : Word) : Word × CC := report (adder d s 0) (sv d + sv s)

/-- R112. -/
def subOp (d s : Word) : Word × CC := report (adder d (cmp3 s) 1) (sv d - sv s)

/-- R113; `k` is the carry trit as it stands. -/
def addcOp (k : Trit) (d s : Word) : Word × CC :=
  report (adder d s k.val) (sv d + sv s + (k.val : Int))

/-- R114. -/
def subbOp (k : Trit) (d s : Word) : Word × CC :=
  report (adder d (cmp3 s) k.val) (sv d - sv s - 1 + (k.val : Int))

/-! ## The shifts -/

/-- R121, `n` the count. -/
def slOp (n : Nat) (d : Word) : Word × CC :=
  let r := Word.ofNat (d.val * 3 ^ n)
  (r, { s := sign3 r, v := if sv d * 3 ^ n ≠ sv r then 1 else 0, c := trit d (9 - n) })

/-- `v` of the right shifts: were any nonzero trits shifted out (R122, R123). -/
def inexact (n : Nat) (d : Word) : Trit := if d.val % 3 ^ n ≠ 0 then 1 else 0

/-- R122. -/
def sruOp (n : Nat) (d : Word) : Word × CC :=
  let r := Word.ofNat (d.val / 3 ^ n)
  (r, { s := sign3 r, v := inexact n d, c := trit d (n - 1) })

/-- R123: the signed value divided by `3^n`, rounded toward minus infinity. -/
def srsOp (n : Nat) (d : Word) : Word × CC :=
  let r := Word.ofInt (sv d / 3 ^ n)
  (r, { s := sign3 r, v := inexact n d, c := trit d (n - 1) })

/-! ## The branch conditions, each as printed -/

/-- R132 -/
def condBeq (k : CC) : Bool := decide (k.s = 0)
/-- R133 -/
def condBne (k : CC) : Bool := decide (k.s ≠ 0)
/-- R134 -/
def condBlts (k : CC) : Bool := decide ((k.s = 2 ∧ k.v = 0) ∨ (k.s = 1 ∧ k.v = 1))
/-- R135 -/
def condBles (k : CC) : Bool := decide ((k.s = 2 ∧ k.v = 0) ∨ (k.s = 1 ∧ k.v = 1) ∨ k.s = 0)
/-- R136 -/
def condBges (k : CC) : Bool := decide ((k.s = 1 ∧ k.v = 0) ∨ (k.s = 2 ∧ k.v = 1) ∨ k.s = 0)
/-- R137 -/
def condBgts (k : CC) : Bool := decide ((k.s = 1 ∧ k.v = 0) ∨ (k.s = 2 ∧ k.v = 1))
/-- R138 -/
def condBltu (k : CC) : Bool := decide (k.c = 0)
/-- R139 -/
def condBleu (k : CC) : Bool := decide (k.c = 0 ∨ k.s = 0)
/-- R140 -/
def condBgeu (k : CC) : Bool := decide (k.c ≠ 0)
/-- R141 -/
def condBgtu (k : CC) : Bool := decide (k.c ≠ 0 ∧ k.s ≠ 0)
/-- R142 -/
def condBpos (k : CC) : Bool := decide (k.s = 1)
/-- R143 -/
def condBnpos (k : CC) : Bool := decide (k.s ≠ 1)
/-- R144 -/
def condBneg (k : CC) : Bool := decide (k.s = 2)
/-- R145 -/
def condBnneg (k : CC) : Bool := decide (k.s ≠ 2)
/-- R146 -/
def condBvr (k : CC) : Bool := decide (k.v = 0)
/-- R147, with the printed `s` read as `v` (90_conflicts.md C11) -/
def condBvs (k : CC) : Bool := decide (k.v ≠ 0)

end Sys2Proof.Machine
end

