-- ==== Sys2Proof/WellFormed.lean ====
section
/-! DEFINITION. Which terms are terms of the language (R102, R104, R108 of 42_legacy_operands.md;
D13; U16), and which rows of an OPMAP are rows of it. -/

namespace Sys2Proof

/-- The operand is written with a `*`. -/
def Operand.isStar : Operand → Bool
  | .star _ => true
  | .reg _ | .const _ => false

/-- The operand is a register. -/
def Operand.isReg : Operand → Bool
  | .reg _ => true
  | .star _ | .const _ => false

/-- A constant operand is in LEGACY_CONST (R103, P11); the other forms always pass. -/
def Operand.constOk (lc : LegacyConst) : Operand → Bool
  | .const k => lc.allows k
  | .reg _ | .star _ => true

/-- R102: a suffix needs exactly one starred operand. -/
def suffixOk (a : Suffix) (src dst : Operand) : Bool :=
  match a with
  | .plain => true
  | .inc | .dec => xor src.isStar dst.isStar

/-- A data term with two operands (R100 to R103). -/
def dataOk (lc : LegacyConst) (a : Suffix) (src dst : Operand) : Bool :=
  suffixOk a src dst && (src.constOk lc && dst.constOk lc)

/-- `addc` and `subb`: the source is a register (R104). -/
def carryOk (lc : LegacyConst) (a : Suffix) (src dst : Operand) : Bool :=
  src.isReg && dataOk lc a src dst

/-- A shift: no suffix (R108). Every count field is a count. -/
def shiftOk (lc : LegacyConst) (a : Suffix) (dst : Operand) : Bool :=
  decide (a = .plain) && dst.constOk lc

/-- The instruction is a term of the language, with constants from `lc`. Every `store`, `load` and
`loadi` that the syntax can hold is legal (R51, R59, R71), and so is every branch (R130). -/
def Instr.wellFormed (lc : LegacyConst) : Instr → Bool
  | .store _ _ _ | .load _ _ _ | .loadi _ _ => true
  | .add a src dst => dataOk lc a src dst
  | .sub a src dst => dataOk lc a src dst
  | .addc a src dst => carryOk lc a src dst
  | .subb a src dst => carryOk lc a src dst
  | .sl a _ dst => shiftOk lc a dst
  | .sru a _ dst => shiftOk lc a dst
  | .srs a _ dst => shiftOk lc a dst
  | .beq _ | .bne _ | .blts _ | .bles _ | .bges _ | .bgts _ => true
  | .bltu _ | .bleu _ | .bgeu _ | .bgtu _ => true
  | .bpos _ | .bnpos _ | .bneg _ | .bnneg _ | .bvr _ | .bvs _ => true

/-- A row that an OPMAP may hold (R58, R100, R130): the word's `op` is not one of the three
assigned, the term is below the frontier, and only a branch may take two words. -/
def OpmapRow.wellFormed (row : OpmapRow) : Bool :=
  decide (row.word.val / 729 < 24) && !row.term.isCurrent &&
    (decide (row.words = .one) || row.term.isBranch)

end Sys2Proof
end

