-- ==== Sys2Proof/Decode.lean ====
section
/-! DEFINITION. The instruction word and its fields (R50 to R53), the decoder (R54 to R59), the
encoder, and the opcode table's numerals (R66). -/

namespace Sys2Proof

/-! ## Fields of the instruction word (R50, R52) -/

/-- `op = w[08:06]` -/
def opField (w : Word) : Nat := w.val / 729

/-- `r = w[05:04]` -/
def rField (w : Word) : Reg := Fin.ofNat 9 (w.val / 81)

/-- `addr = w[03:00]` -/
def addrField (w : Word) : Fin 81 := Fin.ofNat 81 w.val

/-- `m = w[03:02]` -/
def mField (w : Word) : Nat := w.val / 9 % 9

/-- `x = w[01:00]` -/
def xField (w : Word) : Reg := Fin.ofNat 9 w.val

/-! ## The decoder -/

/-- Why a word is no instruction. -/
inductive Reject where
  /-- `op` is none of 220, 221, 222 and OPMAP does not bind the word (R58) -/
  | unassignedOpcode
  /-- `store` or `load` with `m` in 21, 20, 01, 00 (R59) -/
  | unassignedMode
  deriving DecidableEq, Repr

/-- Why a list of words does not begin with an instruction. -/
inductive StreamReject where
  /-- its first word is no instruction -/
  | word (why : Reject)
  /-- it ends inside the instruction -/
  | truncated
  deriving DecidableEq, Repr

/-- The mode that a value of `m` names, with `d` the word after the instruction word (R53). -/
def modeOf (m : Nat) (d : Word) : Except Reject Mode :=
  match m with
  | 8 => .ok .register
  | 5 => .ok .indirect
  | 4 => .ok .autoInc
  | 3 => .ok .autoDec
  | 2 => .ok (.indexed d)
  | _ => .error .unassignedMode

/-- How many words an instruction of the current format takes, from its first word (R55). -/
def currentLength (w : Word) : Nat :=
  if (opField w = 26 ∨ opField w = 25) ∧ mField w = 2 then 2 else 1

/-- The decoder of the current format (R54): `w` the instruction word, `d` the word after it,
looked at only where `currentLength w = 2`. -/
def decodeCurrent (w d : Word) : Except Reject Instr :=
  match opField w with
  | 26 => (modeOf (mField w) d).map fun m => .store (rField w) m (xField w)
  | 25 => (modeOf (mField w) d).map fun m => .load (rField w) m (xField w)
  | 24 => .ok (.loadi (rField w) (addrField w))
  | _ => .error .unassignedOpcode

/-- The row of an OPMAP that binds word `w` fetched at address `A`: the first well-formed row for
that word and that address (R58, R100, R130). -/
def opmapRow (om : List OpmapRow) (A w : Word) : Option OpmapRow :=
  om.find? fun row =>
    row.wellFormed && (decide (row.word = w) && (row.addr.isNone || decide (row.addr = some A)))

/-- How many words the instruction whose first word is `w`, at address `A`, takes. -/
def instrLength (om : List OpmapRow) (A w : Word) : Nat :=
  if 24 ≤ opField w then currentLength w
  else match opmapRow om A w with
    | some row => match row.words with
      | .one => 1
      | .two => 2
    | none => 1

/-- The decoder: the current format, and OPMAP's terms for the words it leaves unassigned (R58).
`d` is the word after `w`, looked at only where the instruction takes two words. -/
def decode (om : List OpmapRow) (A w d : Word) : Except Reject Instr :=
  if 24 ≤ opField w then decodeCurrent w d
  else match opmapRow om A w with
    | some row => .ok row.term
    | none => .error .unassignedOpcode

/-- The decoder on a list of words that starts at address `A`: the instruction and the words after
it. Total on every list. -/
def decodeWords (om : List OpmapRow) (A : Word) : List Word → Except StreamReject (Instr × List Word)
  | [] => .error .truncated
  | w :: rest =>
    if instrLength om A w = 2 then
      match rest with
      | [] => .error .truncated
      | d :: rest => ((decode om A w d).map fun i => (i, rest)).mapError .word
    else ((decode om A w 0).map fun i => (i, rest)).mapError .word

/-! ## The encoder -/

/-- The word with the given `op`, `r` and `addr` fields (R50). -/
def wordOfFields (op : Nat) (r : Reg) (addr : Nat) : Word :=
  Word.ofNat (op * 729 + r.val * 81 + addr)

/-- The `m` field of a mode (R53). -/
def Mode.field : Mode → Nat
  | .register => 8
  | .indirect => 5
  | .autoInc => 4
  | .autoDec => 3
  | .indexed _ => 2

/-- The words after the instruction word: indexed mode's displacement (R76). -/
def Mode.extraWords : Mode → List Word
  | .indexed d => [d]
  | .register | .indirect | .autoInc | .autoDec => []

/-- The words of an instruction (R50 to R57). The terms below the frontier have no encoding in the
current format (R65, R66): an OPMAP alone gives them words. -/
def encode : Instr → Option (List Word)
  | .store r m x => some (wordOfFields 26 r (m.field * 9 + x.val) :: m.extraWords)
  | .load r m x => some (wordOfFields 25 r (m.field * 9 + x.val) :: m.extraWords)
  | .loadi r k => some [wordOfFields 24 r k.val]
  | .add _ _ _ | .sub _ _ _ | .addc _ _ _ | .subb _ _ _ => none
  | .sl _ _ _ | .sru _ _ _ | .srs _ _ _ => none
  | .beq _ | .bne _ | .blts _ | .bles _ | .bges _ | .bgts _ => none
  | .bltu _ | .bleu _ | .bgeu _ | .bgtu _ => none
  | .bpos _ | .bnpos _ | .bneg _ | .bnneg _ | .bvr _ | .bvs _ => none

/-! ## The opcode table's numerals

DESIGN CHOICE (log entry 10): the table's patterns are strings of nine trits (R66), and its
numbers are those strings read as decimal numerals. A table number is therefore read digit by
digit, each digit a trit. -/

/-- The value of the `k`-trit numeral whose decimal digits are the trits; none where a digit is no
trit or there are more than `k` digits. -/
def numeralValue : Nat → Nat → Option Nat
  | 0, n => if n = 0 then some 0 else none
  | k + 1, n =>
    if n % 10 ≤ 2 then (numeralValue k (n / 10)).map fun u => u * 3 + n % 10 else none

/-- The word written by the nine-trit numeral `n` (`222222222` is the word of all 2's). -/
def tableWord (n : Nat) : Option Word :=
  (numeralValue 9 n).map Word.ofNat

/-- What the decoder reads from the opcode table's number `w`, a displacement word being zero. On
the base machine OPMAP is empty. -/
def decodeTableWord (_nbits w : Nat) : Option Instr :=
  match tableWord w with
  | some u => (decode [] 0 u 0).toOption
  | none => none

end Sys2Proof
end

