-- ==== Sys2Proof/Machine/Ops.lean ====
section
/-! DEFINITION. The named operations over registers, tags, flags and memory; the instruction fetch;
and the launch. The machine has no trap and no exception entry or return (R151, R154), so there is
none here. -/

namespace Sys2Proof.Machine

/-! ## Registers, flags, tags -/

/-- `x[i]` (R10). -/
def State.reg (s : State) (i : Reg) : Word := s.regs[i]

/-- `x[i] <- v`. No register is hardwired (R10). -/
def State.setReg (s : State) (i : Reg) (v : Word) : State := { s with regs := s.regs.set i v }

/-- The program counter (R13). -/
def State.pc (s : State) : Word := s.reg pcReg

/-- `cc <- (s, v, c)` (R18). -/
def State.setCC (s : State) (cc : CC) : State := { s with cc := cc }

/-- `tag[r] <- tag[x]`, on a machine that has tags (R16). -/
def State.copyTag (s : State) (r x : Reg) : State :=
  { s with tags := s.tags.map fun t => t.set r t[x] }

/-! ## Memory -/

/-- The word listed at a place. -/
def Memory.read : Memory → Nat → Option Word
  | [], _ => none
  | (q, w) :: m, p => if q = p then some w else Memory.read m p

/-- The memory with `v` at place `p` and every other place as before. -/
def Memory.write : Memory → Nat → Word → Memory
  | [], p, v => [(p, v)]
  | (q, w) :: m, p, v =>
    if p < q then (p, v) :: (q, w) :: m
    else if p = q then (p, v) :: m
    else (q, w) :: Memory.write m p v

/-- The word at a place: the last one written, or the launch content (R33). -/
def State.cell (s : State) (p : Nat) : Word := (s.mem.read p).getD (Config.launchWord p)

/-- The place that a tag and an address name (R36, P6): as the storage map says, and a place of
their own where it says nothing. -/
def placeOf (ps : Params) (t : Tag) (a : Word) : Nat :=
  match ps.places.find? fun row => decide (row.tag = t ∧ row.addr = a) with
  | some row => row.place
  | none => t * 19683 + a.val

/-- The place of an access through register `i` to address `a`: the address itself on the untagged
machine (R30), the place of `(tag[i], a)` on a tagged one (R36). -/
def State.place (s : State) (i : Reg) (a : Word) : Nat :=
  match s.tags with
  | none => a.val
  | some t => placeOf s.params t[i] a

/-- MEM_MAP has memory there (P9; R33, R38). -/
def State.mapped (s : State) (i : Reg) (a : Word) : Bool := !s.params.holes.contains (s.place i a)

/-- `MemRead` through register `i` (R33, R36); none outside MEM_MAP. -/
def State.readVia (s : State) (i : Reg) (a : Word) : Option Word :=
  if s.mapped i a then some (s.cell (s.place i a)) else none

/-- `MemWrite` through register `i` (R34, R36); none outside MEM_MAP. -/
def State.writeVia (s : State) (i : Reg) (a : Word) (v : Word) : Option State :=
  if s.mapped i a then some { s with mem := s.mem.write (s.place i a) v } else none

/-! ## Fetch -/

/-- One word from the instruction stream: `MemRead(pc, 1); pc <- pc +m 1` (R13, R70). -/
def State.fetch (s : State) : Except Fault (Word × State) :=
  match s.readVia pcReg s.pc with
  | some w => .ok (w, s.setReg pcReg (s.pc + 1))
  | none => .error (.unmappedAddress s.pc)

/-- The fault that a rejected word is, with the word and its address (R58, R59, R150). -/
def rejectFault (A w : Word) : Reject → Fault
  | .unassignedOpcode => .unassignedOpcode A w
  | .unassignedMode => .unassignedMode A w

/-- The instruction decoded from its words, or the fault. -/
def decodeOrFault (s : State) (A w d : Word) : Except Fault Instr :=
  match decode s.params.opmap A w d with
  | .ok i => .ok i
  | .error e => .error (rejectFault A w e)

/-- Steps 1 to 3 of R80, and step 1 of R106: fetch the instruction word, fetch the second word
where there is one, decode. The pc is left past the last word fetched. A word that is rejected
takes one word, so its fault comes before any fault of a second fetch (R153). -/
def State.fetchInstr (s : State) : Except Fault (Instr × State) :=
  match s.fetch with
  | .error f => .error f
  | .ok (w, s1) =>
    if instrLength s.params.opmap s.pc w = 2 then
      match s1.fetch with
      | .error f => .error f
      | .ok (d, s2) => (decodeOrFault s s.pc w d).map fun i => (i, s2)
    else (decodeOrFault s s.pc w 0).map fun i => (i, s1)

/-! ## The launch -/

/-- One word placed by the launch (R170: an act of the model's host). -/
def State.placeWord (s : State) (p : Nat) (v : Word) : State := { s with mem := s.mem.write p v }

/-- Words placed by the launch, each at its place. -/
def State.loadImage (s : State) (image : List (Nat × Word)) : State :=
  image.foldl (fun t pw => t.placeWord pw.1 pw.2) s

/-- The launch state (R170): an image placed in memory and the pc set. -/
def State.launch (s : State) (pc : Word) (image : List (Nat × Word)) : State :=
  (s.loadImage image).setReg pcReg pc

end Sys2Proof.Machine
end

