-- ==== Sys2Proof/Machine/Operands.lean ====
section
/-! DEFINITION. Resolving the operand of `store` and `load` (R71 to R76, step 5 of R80), and reading
and writing the operands of the below-frontier terms (R104 to R106). -/

namespace Sys2Proof.Machine

/-! ## The addressing modes -/

/-- The memory address of a mode, with `vx` the value of `x[x]` (step 5 of R80); none in register
mode. -/
def modeAddress (m : Mode) (vx : Word) : Option Word :=
  match m with
  | .register => none
  | .indirect => some vx
  | .autoInc => some vx
  | .autoDec => some (vx - 1)
  | .indexed d => some (vx + d)

/-- The auto-modification of `x[x]` (R74, R75). -/
def modeModify (m : Mode) (x : Reg) (s : State) : State :=
  match m with
  | .autoInc => s.setReg x (s.reg x + 1)
  | .autoDec => s.setReg x (s.reg x - 1)
  | .register | .indirect | .indexed _ => s

/-! ## The operands below the frontier -/

/-- The address used through a starred register that holds `v` (R102, R104, R105). -/
def suffixAddress (a : Suffix) (v : Word) : Word :=
  match a with
  | .dec => v - 1
  | .plain | .inc => v

/-- What the suffix leaves in a starred register that holds `v` (R102). -/
def suffixAfter (a : Suffix) (v : Word) : Word :=
  match a with
  | .plain => v
  | .inc => v + 1
  | .dec => v - 1

/-- The value of an operand, from the registers as they stand before any modification (R104, R105;
step 2 of R106). -/
def readOperand (a : Suffix) (s : State) : Operand → Except Fault Word
  | .reg r => .ok (s.reg r)
  | .const k => .ok k
  | .star r =>
    match s.readVia r (suffixAddress a (s.reg r)) with
    | some w => .ok w
    | none => .error (.unmappedAddress (suffixAddress a (s.reg r)))

/-- The suffix's modification of a starred operand's register (step 3 of R106). -/
def bump (a : Suffix) (s : State) : Operand → State
  | .star r => s.setReg r (suffixAfter a (s.reg r))
  | .reg _ | .const _ => s

/-- Write the result to the destination (R105; step 5 of R106). `s` is the state before any
modification, from which the address is taken; `t` the state after it. -/
def writeOperand (a : Suffix) (s t : State) (result : Word) : Operand → Except Fault State
  | .reg r => .ok (t.setReg r result)
  | .const _ => .ok t
  | .star r =>
    match t.writeVia r (suffixAddress a (s.reg r)) result with
    | some u => .ok u
    | none => .error (.unmappedAddress (suffixAddress a (s.reg r)))

/-- Steps 3 to 6 of R106 for the destination: read it as it stood in `s`, compute, write result and
flags into `t`. -/
def updateDst (a : Suffix) (dst : Operand) (f : Word → Word × CC) (s t : State) :
    Host.Outcome State Fault Refusal :=
  match readOperand a s dst with
  | .error e => .fault e
  | .ok d =>
    match writeOperand a s t (f d).1 dst with
    | .error e => .fault e
    | .ok u => .next (u.setCC (f d).2)

/-- Why a suffix and two operands are no term (R102), if they are none. -/
def suffixRefusal (a : Suffix) (src dst : Operand) : Option Refusal :=
  match a with
  | .plain => none
  | .inc | .dec =>
    if src.isStar && dst.isStar then some .suffixWithTwoStars
    else if src.isStar || dst.isStar then none
    else some .suffixWithoutStar

/-- Why a data term is refused, if it is (R102, R103). -/
def dataRefusal (lc : LegacyConst) (a : Suffix) (src dst : Operand) : Option Refusal :=
  match suffixRefusal a src dst with
  | some r => some r
  | none => if src.constOk lc && dst.constOk lc then none else some .constantOutsideSet

/-- Steps 2 to 6 of R106: a data term that computes `f d s` from the destination and the source
value. The state already has the pc past the term. -/
def runData (f : Word → Word → Word × CC) (a : Suffix) (src dst : Operand) (s : State) :
    Host.Outcome State Fault Refusal :=
  match dataRefusal s.params.legacyConst a src dst with
  | some r => .refused r
  | none =>
    match readOperand a s src with
    | .error e => .fault e
    | .ok v => updateDst a dst (fun d => f d v) s (bump a (bump a s src) dst)

/-- A data term whose source must be a register (R104). -/
def runCarry (f : Word → Word → Word × CC) (a : Suffix) (src dst : Operand) (s : State) :
    Host.Outcome State Fault Refusal :=
  if src.isReg then runData f a src dst s else .refused .sourceNotRegister

/-- A shift (R108): no suffix, the destination read and written as R105 says. -/
def runShift (f : Word → Word × CC) (a : Suffix) (dst : Operand) (s : State) :
    Host.Outcome State Fault Refusal :=
  if a = .plain then
    if dst.constOk s.params.legacyConst then updateDst .plain dst f s s
    else .refused .constantOutsideSet
  else .refused .suffixOnShift

/-- A conditional branch (R130): to `target` when the condition holds. The state already has the pc
past the branch. -/
def branchIf (taken : Bool) (target : Word) (s : State) : Host.Outcome State Fault Refusal :=
  .next (if taken then s.setReg pcReg target else s)

end Sys2Proof.Machine
end

