-- ==== Sys2Proof/Machine/Arithmetic.lean ====
section
/-! DEFINITION. The meanings of `add`, `sub`, `addc` and `subb` (43_arithmetic.md) by the steps of
R106. -/

namespace Sys2Proof.Machine

/-- `add[a] src,dst` (R111). -/
def execAdd (a : Suffix) (src dst : Operand) (s : State) : Host.Outcome State Fault Refusal :=
  runData addOp a src dst s

/-- `sub[a] src,dst` (R112). -/
def execSub (a : Suffix) (src dst : Operand) (s : State) : Host.Outcome State Fault Refusal :=
  runData subOp a src dst s

/-- `addc[a] src,dst` (R113): adds the carry trit as it stands. -/
def execAddc (a : Suffix) (src dst : Operand) (s : State) : Host.Outcome State Fault Refusal :=
  runCarry (addcOp s.cc.c) a src dst s

/-- `subb[a] src,dst` (R114). -/
def execSubb (a : Suffix) (src dst : Operand) (s : State) : Host.Outcome State Fault Refusal :=
  runCarry (subbOp s.cc.c) a src dst s

end Sys2Proof.Machine
end

