-- ==== Sys2Proof/Machine/Branches.lean ====
section
/-! DEFINITION. The meanings of the sixteen conditional branches (45_branches.md). -/

namespace Sys2Proof.Machine

/-- `beq target` (R132, R130). -/
def execBeq (target : Word) (s : State) : Host.Outcome State Fault Refusal :=
  branchIf (condBeq s.cc) target s

/-- `bne target` (R133, R130). -/
def execBne (target : Word) (s : State) : Host.Outcome State Fault Refusal :=
  branchIf (condBne s.cc) target s

/-- `blts target` (R134, R130). -/
def execBlts (target : Word) (s : State) : Host.Outcome State Fault Refusal :=
  branchIf (condBlts s.cc) target s

/-- `bles target` (R135, R130). -/
def execBles (target : Word) (s : State) : Host.Outcome State Fault Refusal :=
  branchIf (condBles s.cc) target s

/-- `bges target` (R136, R130). -/
def execBges (target : Word) (s : State) : Host.Outcome State Fault Refusal :=
  branchIf (condBges s.cc) target s

/-- `bgts target` (R137, R130). -/
def execBgts (target : Word) (s : State) : Host.Outcome State Fault Refusal :=
  branchIf (condBgts s.cc) target s

/-- `bltu target` (R138, R130). -/
def execBltu (target : Word) (s : State) : Host.Outcome State Fault Refusal :=
  branchIf (condBltu s.cc) target s

/-- `bleu target` (R139, R130). -/
def execBleu (target : Word) (s : State) : Host.Outcome State Fault Refusal :=
  branchIf (condBleu s.cc) target s

/-- `bgeu target` (R140, R130). -/
def execBgeu (target : Word) (s : State) : Host.Outcome State Fault Refusal :=
  branchIf (condBgeu s.cc) target s

/-- `bgtu target` (R141, R130). -/
def execBgtu (target : Word) (s : State) : Host.Outcome State Fault Refusal :=
  branchIf (condBgtu s.cc) target s

/-- `bpos target` (R142, R130). -/
def execBpos (target : Word) (s : State) : Host.Outcome State Fault Refusal :=
  branchIf (condBpos s.cc) target s

/-- `bnpos target` (R143, R130). -/
def execBnpos (target : Word) (s : State) : Host.Outcome State Fault Refusal :=
  branchIf (condBnpos s.cc) target s

/-- `bneg target` (R144, R130). -/
def execBneg (target : Word) (s : State) : Host.Outcome State Fault Refusal :=
  branchIf (condBneg s.cc) target s

/-- `bnneg target` (R145, R130). -/
def execBnneg (target : Word) (s : State) : Host.Outcome State Fault Refusal :=
  branchIf (condBnneg s.cc) target s

/-- `bvr target` (R146, R130). -/
def execBvr (target : Word) (s : State) : Host.Outcome State Fault Refusal :=
  branchIf (condBvr s.cc) target s

/-- `bvs target` (R147, R130). -/
def execBvs (target : Word) (s : State) : Host.Outcome State Fault Refusal :=
  branchIf (condBvs s.cc) target s

end Sys2Proof.Machine
end

