-- ==== Sys2Proof/Machine/Shifts.lean ====
section
/-! DEFINITION. The meanings of `sl`, `sru` and `srs` (44_shifts.md). -/

namespace Sys2Proof.Machine

/-- `sl n,dst` (R121). -/
def execSl (a : Suffix) (n : CountField) (dst : Operand) (s : State) :
    Host.Outcome State Fault Refusal :=
  runShift (slOp (shiftCount n)) a dst s

/-- `sru n,dst` (R122). -/
def execSru (a : Suffix) (n : CountField) (dst : Operand) (s : State) :
    Host.Outcome State Fault Refusal :=
  runShift (sruOp (shiftCount n)) a dst s

/-- `srs n,dst` (R123). -/
def execSrs (a : Suffix) (n : CountField) (dst : Operand) (s : State) :
    Host.Outcome State Fault Refusal :=
  runShift (srsOp (shiftCount n)) a dst s

end Sys2Proof.Machine
end

