-- ==== Sys2Proof/Machine/Transfer.lean ====
section
/-! DEFINITION. The meanings of `store`, `load` and `loadi` (41_data_transfer.md). The state a
meaning is given has the pc past the instruction's words (steps 1 to 3 of R80). -/

namespace Sys2Proof.Machine

/-- `store r,addr` (R90; steps 4 to 6 of R80). -/
def execStore (r : Reg) (m : Mode) (x : Reg) (s : State) : Host.Outcome State Fault Refusal :=
  match modeAddress m (s.reg x) with
  | none => .next (s.setReg x (s.reg r))
  | some a =>
    match (modeModify m x s).writeVia x a (s.reg r) with
    | some t => .next t
    | none => .fault (.unmappedAddress a)

/-- `load r,addr` (R91; steps 4 to 7 of R80). -/
def execLoad (r : Reg) (m : Mode) (x : Reg) (s : State) : Host.Outcome State Fault Refusal :=
  match modeAddress m (s.reg x) with
  | none => .next (((s.copyTag r x).setReg r (s.reg x)).setCC (loadCC (s.reg x)))
  | some a =>
    match (modeModify m x s).readVia x a with
    | some v => .next (((modeModify m x s).setReg r v).setCC (loadCC v))
    | none => .fault (.unmappedAddress a)

/-- `loadi r,k` (R92). -/
def execLoadi (r : Reg) (k : Fin 81) (s : State) : Host.Outcome State Fault Refusal :=
  .next ((s.setReg r (sext4 k)).setCC (loadCC (sext4 k)))

end Sys2Proof.Machine
end

