-- ==== Sys2Proof/Machine/Dispatch.lean ====
section
/-! DEFINITION. One arm per constructor of Instr. -/

namespace Sys2Proof.Machine

def exec (i : Instr) (s : State) : Host.Outcome State Fault Refusal :=
  match i with
  | .store r m x => Sys2Proof.Machine.execStore r m x s
  | .load r m x => Sys2Proof.Machine.execLoad r m x s
  | .loadi r k => Sys2Proof.Machine.execLoadi r k s
  | .add a src dst => Sys2Proof.Machine.execAdd a src dst s
  | .sub a src dst => Sys2Proof.Machine.execSub a src dst s
  | .addc a src dst => Sys2Proof.Machine.execAddc a src dst s
  | .subb a src dst => Sys2Proof.Machine.execSubb a src dst s
  | .sl a n dst => Sys2Proof.Machine.execSl a n dst s
  | .sru a n dst => Sys2Proof.Machine.execSru a n dst s
  | .srs a n dst => Sys2Proof.Machine.execSrs a n dst s
  | .beq target => Sys2Proof.Machine.execBeq target s
  | .bne target => Sys2Proof.Machine.execBne target s
  | .blts target => Sys2Proof.Machine.execBlts target s
  | .bles target => Sys2Proof.Machine.execBles target s
  | .bges target => Sys2Proof.Machine.execBges target s
  | .bgts target => Sys2Proof.Machine.execBgts target s
  | .bltu target => Sys2Proof.Machine.execBltu target s
  | .bleu target => Sys2Proof.Machine.execBleu target s
  | .bgeu target => Sys2Proof.Machine.execBgeu target s
  | .bgtu target => Sys2Proof.Machine.execBgtu target s
  | .bpos target => Sys2Proof.Machine.execBpos target s
  | .bnpos target => Sys2Proof.Machine.execBnpos target s
  | .bneg target => Sys2Proof.Machine.execBneg target s
  | .bnneg target => Sys2Proof.Machine.execBnneg target s
  | .bvr target => Sys2Proof.Machine.execBvr target s
  | .bvs target => Sys2Proof.Machine.execBvs target s

end Sys2Proof.Machine
end

