-- ==== Sys2Proof/Machine/Step.lean ====
section
/-! DEFINITION. One step: fetch and decode, then the instruction's meaning (R80, R82, R106). -/

namespace Sys2Proof.Machine

/-- One instruction to completion (R82). -/
def step (s : State) : Host.Outcome State Fault Refusal :=
  match s.fetchInstr with
  | .error f => .fault f
  | .ok (i, t) => exec i t

/-- `s` with the word of the opcode table's number `w`, and a zero word after it, where the next
step fetches (log entry 10); `s` itself where `w` is no nine-trit numeral. -/
def State.withFetchWord (s : State) (_nbits w : Nat) : State :=
  match tableWord w with
  | some u => (s.placeWord (s.place pcReg (s.pc + 1)) 0).placeWord (s.place pcReg s.pc) u
  | none => s

end Sys2Proof.Machine
end

