-- ==== Sys2Proof/Machine/Asm.lean ====
section
/-! DEFINITION. The assembler as far as the spec gives it: `.word` and the `loadi` widening (R63,
R64), and how an instruction and a line are written (R61, R62, R100 to R103, R108, R130). -/

namespace Sys2Proof.Machine

/-- `.word k` places `k mod 3^9` (R64, D21). -/
def dotWord (k : Int) : Word := Word.ofInt k

/-- `loadi r,k` as the assembler makes it (R63): one word where `k` fits the field, else
`load r,*pc++` and `.word k`. -/
def assembleLoadi (r : Reg) (k : Int) : List Word :=
  if -40 ≤ k ∧ k ≤ 40 then [wordOfFields 24 r (k % 81).toNat]
  else [wordOfFields 25 r (Mode.autoInc.field * 9 + pcReg.val), dotWord k]

/-- A register as written (R11, R62). -/
def regText (r : Reg) : String :=
  if r = spReg then "sp" else if r = pcReg then "pc" else "r" ++ toString r.val

/-- A signed decimal. -/
def signedText (z : Int) : String := if z < 0 then "-" ++ toString z.natAbs else toString z.natAbs

/-- The second operand of `store` and `load` (R62). -/
def modeText (m : Mode) (x : Reg) : String :=
  match m with
  | .register => regText x
  | .indirect => "*" ++ regText x
  | .autoInc => "*" ++ regText x ++ "++"
  | .autoDec => "*--" ++ regText x
  | .indexed d => regText x ++ "->" ++ signedText (sv d)

/-- An operand below the frontier (R101). -/
def operandText : Operand → String
  | .reg r => regText r
  | .star r => "*" ++ regText r
  | .const k => "=" ++ signedText (sv k)

/-- The suffix of a mnemonic (R102). -/
def suffixText : Suffix → String
  | .plain => ""
  | .inc => "+"
  | .dec => "-"

/-- A term `op[a] src,dst` (R100). -/
def dataText (name : String) (a : Suffix) (src dst : Operand) : String :=
  name ++ suffixText a ++ " " ++ operandText src ++ "," ++ operandText dst

/-- A shift `op n,dst`, the count in decimal (R108). -/
def shiftText (name : String) (a : Suffix) (n : CountField) (dst : Operand) : String :=
  name ++ suffixText a ++ " " ++ toString (shiftCount n) ++ "," ++ operandText dst

/-- A branch and its target address (R130). -/
def branchText (name : String) (target : Word) : String := name ++ " " ++ toString target.val

/-- An instruction as written (R61, R62). -/
def instrText : Instr → String
  | .store r m x => "store " ++ regText r ++ "," ++ modeText m x
  | .load r m x => "load " ++ regText r ++ "," ++ modeText m x
  | .loadi r k => "loadi " ++ regText r ++ "," ++ signedText (sv (sext4 k))
  | .add a src dst => dataText "add" a src dst
  | .sub a src dst => dataText "sub" a src dst
  | .addc a src dst => dataText "addc" a src dst
  | .subb a src dst => dataText "subb" a src dst
  | .sl a n dst => shiftText "sl" a n dst
  | .sru a n dst => shiftText "sru" a n dst
  | .srs a n dst => shiftText "srs" a n dst
  | .beq t => branchText "beq" t
  | .bne t => branchText "bne" t
  | .blts t => branchText "blts" t
  | .bles t => branchText "bles" t
  | .bges t => branchText "bges" t
  | .bgts t => branchText "bgts" t
  | .bltu t => branchText "bltu" t
  | .bleu t => branchText "bleu" t
  | .bgeu t => branchText "bgeu" t
  | .bgtu t => branchText "bgtu" t
  | .bpos t => branchText "bpos" t
  | .bnpos t => branchText "bnpos" t
  | .bneg t => branchText "bneg" t
  | .bnneg t => branchText "bnneg" t
  | .bvr t => branchText "bvr" t
  | .bvs t => branchText "bvs" t

/-- A line: an optional label with its colon, the instruction, an optional comment after a
semicolon (R61). -/
def lineText (label : Option String) (i : Instr) (comment : Option String) : String :=
  (match label with
    | some l => l ++ ": "
    | none => "") ++ instrText i ++
  (match comment with
    | some c => " ; " ++ c
    | none => "")

end Sys2Proof.Machine
end

