-- ==== Sys2Proof/Machine/Run.lean ====
section
/-! DEFINITION. The end of a run (R174, D11; P10): a run is complete the first time the pc equals
HALT_PC at an instruction boundary. A convention of the model, invisible to the program: `step`
does not know it. -/

namespace Sys2Proof.Machine

/-- The pc equals HALT_PC (R174). -/
def State.atHalt (s : State) : Bool := decide (s.params.haltPc = some s.pc)

/-- How a run under fuel ends. -/
inductive RunEnd where
  /-- the pc came to HALT_PC; the instruction there is not executed -/
  | complete (s : State)
  /-- the fuel ran out first -/
  | outOfFuel (s : State)
  /-- a step faulted: not a completed run (R150) -/
  | fault (f : Fault)
  /-- a step was refused -/
  | refused (r : Refusal)
  deriving DecidableEq, Repr

/-- At most `fuel` steps, ending at HALT_PC (R174). -/
def runToHalt : Nat → State → RunEnd
  | 0, s => if s.atHalt then .complete s else .outOfFuel s
  | n + 1, s =>
    if s.atHalt then .complete s
    else match step s with
      | .next t => runToHalt n t
      | .fault f => .fault f
      | .refused r => .refused r

end Sys2Proof.Machine
end

