-- ==== Sys2Proof/Safety.lean ====
section
/-! DEFINITION. The words claims are stated in: what two states agree on, the invariants of the
state, the machines without holes, and a run without a stop. -/

namespace Sys2Proof.Machine

/-- Every register but those listed holds in `t` what it held in `s`. -/
def regsSameBut (s t : State) (changed : List Reg) : Prop :=
  ∀ i : Reg, i ∉ changed → t.reg i = s.reg i

/-- Every word of storage reads in `t` as in `s`. -/
def memSame (s t : State) : Prop := ∀ p : Nat, t.cell p = s.cell p

/-- Every word of storage but the one at `q` reads in `t` as in `s`. -/
def memSameBut (s t : State) (q : Nat) : Prop := ∀ p : Nat, p ≠ q → t.cell p = s.cell p

/-- The tags and the parameters are in `t` those of `s`. -/
def fixedSame (s t : State) : Prop := t.tags = s.tags ∧ t.params = s.params

/-- Memory is in canonical form, and on the untagged machine lists addresses only (R30). -/
def State.memInv (s : State) : Prop :=
  s.mem.wf = true ∧ (s.tags = none → ∀ e ∈ s.mem, e.1 < 19683)

/-- The overflow trit is 0 or 1 (R20, U1). -/
def State.vInv (s : State) : Prop := s.cc.v ≠ 2

/-- Every place holds memory: the base machine's MEM_MAP (P9, R38). -/
def State.allRam (s : State) : Prop := s.params.holes = []

/-- The operand holds `v` in `s`, and can be read: a register its content, a constant itself, a
starred register the word at the address in it, or at the one before with the suffix `-` (R102, R104,
R105). -/
def operandIs (a : Suffix) (s : State) (o : Operand) (v : Word) : Prop :=
  match o with
  | .reg r => v = s.reg r
  | .const k => v = k
  | .star r =>
    match a with
    | .plain | .inc => s.readVia r (s.reg r) = some v
    | .dec => s.readVia r (s.reg r - 1) = some v

/-- The outcome `o` of storing `x[r]` at address `a` through `x`, from `s`: the word there is `x[r]`
as it stood, every other word is as before, `x[x]` is `after`, and nothing else has changed. -/
def storesAt (o : Host.Outcome State Fault Refusal) (s : State) (r x : Reg) (a after : Word) :
    Prop :=
  ∃ t, o = .next t ∧ t.cell (s.place x a) = s.reg r ∧ memSameBut s t (s.place x a) ∧
    t.reg x = after ∧ regsSameBut s t [x] ∧ t.cc = s.cc ∧ fixedSame s t

/-- The outcome `o` of loading `x[r]` from address `a` through `x`, from `s`: `x[r]` is the word
there, the flags report it, `x[x]` is `after` unless it is the register loaded, and nothing else has
changed. -/
def loadsAt (o : Host.Outcome State Fault Refusal) (s : State) (r x : Reg) (a after : Word) : Prop :=
  ∃ t, o = .next t ∧ t.reg r = s.cell (s.place x a) ∧ (x ≠ r → t.reg x = after) ∧
    regsSameBut s t [r, x] ∧ t.cc.s = sign3 (s.cell (s.place x a)) ∧ t.cc.v = 0 ∧ t.cc.c = 0 ∧
    fixedSame s t ∧ memSame s t

/-- The outcome `o` of a term `op[a] src,dst` run from `s` with the given result and flags: the
destination holds the result (a constant destination discards it; a starred one is written at the
address in its register, or at the one before with the suffix `-`); a starred register to which the
result was not written is one further with `+`, one back with `-`, and as it was with no suffix (R102);
nothing else has changed. -/
def termLeaves (o : Host.Outcome State Fault Refusal) (a : Suffix) (src dst : Operand) (s : State)
    (result : Word) (flags : CC) : Prop :=
  ∃ t, o = .next t ∧ t.cc = flags ∧ fixedSame s t ∧
    (∀ i : Reg, dst = .reg i → t.reg i = result) ∧
    (∀ i : Reg, dst ≠ .reg i → (src = .star i ∨ dst = .star i) →
      (a = .plain → t.reg i = s.reg i) ∧ (a = .inc → t.reg i = s.reg i + 1) ∧
        (a = .dec → t.reg i = s.reg i - 1)) ∧
    (∀ i : Reg, dst ≠ .reg i → src ≠ .star i → dst ≠ .star i → t.reg i = s.reg i) ∧
    (∀ (r : Reg) (e : Word), dst = .star r → e = (if a = .dec then s.reg r - 1 else s.reg r) →
      t.cell (s.place r e) = result ∧ memSameBut s t (s.place r e)) ∧
    (dst.isStar = false → memSame s t)

/-- Running the branch `i target` goes to `target` when the condition holds and on to the next
instruction when it does not, and changes nothing else (R130). -/
def branchesOn (i : Word → Instr) (cond : CC → Prop) : Prop :=
  ∀ (target : Word) (s : State), ∃ t, exec (i target) s = .next t ∧
    (cond s.cc → t.pc = target) ∧ (¬ cond s.cc → t.pc = s.pc) ∧
    regsSameBut s t [pcReg] ∧ t.cc = s.cc ∧ fixedSame s t ∧ memSame s t

/-- The branch `i` at `s` is taken to its target exactly when `rel` holds. -/
def takenIff (i : Word → Instr) (s : State) (rel : Prop) : Prop :=
  ∀ target : Word, (rel → exec (i target) s = .next (s.setReg pcReg target)) ∧
    (¬ rel → exec (i target) s = .next s)

/-- `k` steps from `s` meet no fault and no refusal. -/
def runsFor : Nat → State → Prop
  | 0, _ => True
  | k + 1, s => ∃ t, step s = .next t ∧ runsFor k t

/-- The instructions that leave the condition codes alone (R22). -/
def leavesFlags (i : Instr) : Bool :=
  match i with
  | .store _ _ _ => true
  | .load _ _ _ | .loadi _ _ => false
  | .add _ _ _ | .sub _ _ _ | .addc _ _ _ | .subb _ _ _ => false
  | .sl _ _ _ | .sru _ _ _ | .srs _ _ _ => false
  | .beq _ | .bne _ | .blts _ | .bles _ | .bges _ | .bgts _ => true
  | .bltu _ | .bleu _ | .bgeu _ | .bgtu _ => true
  | .bpos _ | .bnpos _ | .bneg _ | .bnneg _ | .bvr _ | .bvs _ => true

/-- The instructions that can write memory (R37): `store` in a memory mode, and a term whose
destination is starred. -/
def mayWriteMemory (i : Instr) : Bool :=
  match i with
  | .store _ m _ => decide (m ≠ .register)
  | .load _ _ _ | .loadi _ _ => false
  | .add _ _ dst | .sub _ _ dst | .addc _ _ dst | .subb _ _ dst => dst.isStar
  | .sl _ _ dst | .sru _ _ dst | .srs _ _ dst => dst.isStar
  | .beq _ | .bne _ | .blts _ | .bles _ | .bges _ | .bgts _ => false
  | .bltu _ | .bleu _ | .bgeu _ | .bgtu _ => false
  | .bpos _ | .bnpos _ | .bneg _ | .bnneg _ | .bvr _ | .bvs _ => false

/-- The instructions that can change a tag (R16): `load` in register mode. -/
def mayCopyTag (i : Instr) : Bool :=
  match i with
  | .load _ m _ => decide (m = .register)
  | .store _ _ _ | .loadi _ _ => false
  | .add _ _ _ | .sub _ _ _ | .addc _ _ _ | .subb _ _ _ => false
  | .sl _ _ _ | .sru _ _ _ | .srs _ _ _ => false
  | .beq _ | .bne _ | .blts _ | .bles _ | .bges _ | .bgts _ => false
  | .bltu _ | .bleu _ | .bgeu _ | .bgtu _ => false
  | .bpos _ | .bnpos _ | .bneg _ | .bnneg _ | .bvr _ | .bvs _ => false

end Sys2Proof.Machine
end

