-- ==== Sys2Proof/Certificates/Slice0/Obligations.lean ====
section
/-! DEFINITION. The statements for the provers. The state an instruction is run from has the pc past
the instruction's words (R80 steps 1 to 3, R106 step 1). -/

open Sys2Proof Sys2Proof.Machine

/-! ## Data representation -/

/-- R4: the sign trit of a word, and what it says of the signed value (R3). -/
def Obligations.SignTritReportsTheSign : Prop :=
  ∀ w : Word, (sign3 w = 0 ↔ w.val = 0) ∧ (sign3 w = 1 ↔ 1 ≤ w.val ∧ w.val ≤ 9841) ∧
    (sign3 w = 2 ↔ 9842 ≤ w.val) ∧ (sign3 w = 0 ↔ sv w = 0) ∧ (sign3 w = 1 ↔ 0 < sv w) ∧
    (sign3 w = 2 ↔ sv w < 0)

/-- R3: the signed reading, one to one on the symmetric range, and the four fixed points, as
nine-trit numerals. -/
def Obligations.SignedReadingIsThreesComplement : Prop :=
  (∀ w : Word, (w.val ≤ 9841 → sv w = w.val) ∧ (9842 ≤ w.val → sv w = (w.val : Int) - 19683) ∧
    -9841 ≤ sv w ∧ sv w ≤ 9841) ∧
  (∀ z : Int, -9841 ≤ z → z ≤ 9841 → ∃ w : Word, sv w = z ∧ ∀ u : Word, sv u = z → u = w) ∧
  (tableWord 111111112).map sv = some (-9841) ∧ (tableWord 222222222).map sv = some (-1) ∧
  (tableWord 0).map sv = some 0 ∧ (tableWord 111111111).map sv = some 9841

/-- 00_scope.md section 6, R5: the trit-wise complement, and negation by complement and one. -/
def Obligations.ComplementPlusOneNegates : Prop :=
  ∀ b : Word, (∀ i : Nat, i < 9 → (trit (cmp3 b) i).val = 2 - (trit b i).val) ∧
    (cmp3 b + 1).val = (19683 - b.val) % 19683 ∧
    (b.val ≠ 9841 → sv (cmp3 b) = - sv b - 1) ∧ cmp3 9841 = 9841

/-- 00_scope.md section 6, R6: the balanced numeral has the signed value. -/
def Obligations.BalancedNumeralHasTheSignedValue : Prop :=
  ∀ w : Word, (List.range 9).foldl
    (fun acc i => acc + (((trit (balanced w) i).val : Int) - 1) * 3 ^ i) 0 = sv w

/-! ## Memory -/

/-- 20_memory.md section 1 (D6): a write replaces one word and changes nothing else, where MEM_MAP
has memory; on the untagged machine each address is a word of its own, whichever register supplies
it. -/
def Obligations.MemoryWriteReplacesOneWord : Prop :=
  ∀ (s : State) (i : Reg) (a v : Word),
    (s.mapped i a = true → ∃ t, s.writeVia i a v = some t ∧ t.readVia i a = some v ∧
      memSameBut s t (s.place i a) ∧ regsSameBut s t [] ∧ t.cc = s.cc ∧ fixedSame s t ∧
      (s.tags = none → ∀ j : Reg, t.readVia j a = some v ∧
        ∀ b : Word, b ≠ a → t.readVia j b = s.readVia j b)) ∧
    (s.mapped i a = false → s.writeVia i a v = none)

/-- 20_memory.md section 1: canonical memories that list the same words are equal (log entry 5). -/
def Obligations.CanonicalMemoriesWithEqualReadsAreEqual : Prop :=
  ∀ m n : Memory, m.wf = true → n.wf = true → (∀ p : Nat, m.read p = n.read p) → m = n

/-- 20_memory.md section 4 (D8): a word stored where the next fetch reads is what it reads. -/
def Obligations.FetchSeesTheStoredWord : Prop :=
  ∀ (s : State) (r x : Reg), s.reg x = s.pc → s.place x s.pc = s.place pcReg s.pc →
    s.mapped x s.pc = true →
    ∃ t u, exec (.store r .indirect x) s = .next t ∧ t.fetch = .ok (s.reg r, u) ∧
      u.pc = s.pc + 1

/-- 20_memory.md section 1, on tagged machines whose storage map is empty, where the model takes
each tag and address to name a word of its own (DESIGN CHOICE, log entry 3): a write through one tag
is not seen through another. -/
def Obligations.TagsSeparateWords : Prop :=
  ∀ (s t : State) (tg : Vector Tag 9) (x y : Reg) (a b v : Word), s.tags = some tg →
    s.params.places = [] → tg[x] ≠ tg[y] → s.writeVia x a v = some t →
    t.readVia y b = s.readVia y b ∧ t.readVia x a = some v

/-- 20_memory.md section 1, 00_scope.md section 4 (P6; the form of the table and the places of
unlisted pairs are the model's, log entry 3): on a tagged machine the first row of the storage map
for the pair of a register's tag and an address names the place, an unlisted pair has a place of its
own, and two pairs are one word exactly where their places are equal. On the untagged machine the
place is the address. -/
def Obligations.StorageMapNamesThePlace : Prop :=
  (∀ (s : State) (i : Reg) (a : Word), s.tags = none → s.place i a = a.val) ∧
  (∀ (s : State) (tg : Vector Tag 9) (i : Reg) (a : Word), s.tags = some tg →
    (∀ (before after : List TagRow) (row : TagRow), s.params.places = before ++ row :: after →
      (∀ q ∈ before, q.tag ≠ tg[i] ∨ q.addr ≠ a) → row.tag = tg[i] → row.addr = a →
      s.place i a = row.place) ∧
    ((∀ q ∈ s.params.places, q.tag ≠ tg[i] ∨ q.addr ≠ a) →
      s.place i a = tg[i] * 19683 + a.val)) ∧
  (∀ (s t : State) (i j : Reg) (a b v : Word), s.writeVia i a v = some t →
    (s.place j b = s.place i a → t.readVia j b = some v) ∧
    (s.place j b ≠ s.place i a → t.readVia j b = s.readVia j b))

/-! ## Encoding -/

/-- 30_encoding.md sections 1 to 4: every current-format instruction has an encoding, and decoding
it, at any address and whatever OPMAP says, gives the instruction back. -/
def Obligations.CurrentFormatEncodeDecode : Prop :=
  ∀ (i : Instr) (om : List OpmapRow) (A : Word) (rest : List Word), i.isCurrent = true →
    ∃ ws, encode i = some ws ∧ decodeWords om A (ws ++ rest) = .ok (i, rest)

/-- 30_encoding.md sections 1 to 4: words that decode to a current-format instruction are its
encoding, so no trit of them is dropped. -/
def Obligations.DecodedWordsReencode : Prop :=
  ∀ (om : List OpmapRow) (A : Word) (l rest : List Word) (i : Instr),
    decodeWords om A l = .ok (i, rest) → i.isCurrent = true →
    ∃ ws, encode i = some ws ∧ l = ws ++ rest

/-- 95_test_vectors.md section 2.2 and 1.3: a few words written out. -/
def Obligations.WrittenOutWordsDecode : Prop :=
  decode [] 0 19682 0 = .ok (.store 8 .register 8) ∧
  decode [] 0 19082 0 = .ok (.store 1 .indirect 2) ∧
  decode [] 0 19053 7 = .ok (.store 1 (.indexed 7) 0) ∧
  decode [] 0 18917 0 = .ok (.load 8 .autoInc 8) ∧
  decode [] 0 18495 0 = .ok (.load 3 .autoDec 0) ∧
  decode [] 0 18224 0 = .ok (.loadi 8 80) ∧
  decode [] 0 19100 0 = .error .unassignedMode ∧
  decode [] 0 18225 0 = .error .unassignedMode ∧
  decode [] 0 17495 0 = .error .unassignedOpcode

/-! ## The step -/

/-- 40_addressing.md sections 1 and 4: a step at a one-word instruction runs it with the pc past it.
-/
def Obligations.StepRunsOneWordInstruction : Prop :=
  ∀ (s : State) (w : Word) (i : Instr), s.readVia pcReg s.pc = some w →
    instrLength s.params.opmap s.pc w = 1 → decode s.params.opmap s.pc w 0 = .ok i →
    step s = exec i (s.setReg pcReg (s.pc + 1))

/-- 40_addressing.md sections 1, 2 and 4: a step at a two-word instruction runs it with the pc past
both words. -/
def Obligations.StepRunsTwoWordInstruction : Prop :=
  ∀ (s : State) (w d : Word) (i : Instr), s.readVia pcReg s.pc = some w →
    instrLength s.params.opmap s.pc w = 2 → s.readVia pcReg (s.pc + 1) = some d →
    decode s.params.opmap s.pc w d = .ok i →
    step s = exec i (s.setReg pcReg (s.pc + 1 + 1))

/-- 42_legacy_operands.md section 2, 45_branches.md section 1 (D12, D14; log entry 6): the first row
of OPMAP that binds the word at the pc, after any rows that are ill-formed or are for another word
or another address, runs its term, with the pc past its one or two words. -/
def Obligations.StepRunsTheOpmapTerm : Prop :=
  ∀ (s : State) (row : OpmapRow) (before rows : List OpmapRow),
    s.params.opmap = before ++ row :: rows →
    (∀ q ∈ before, q.wellFormed = false ∨ q.word ≠ row.word ∨ ∃ A, q.addr = some A ∧ A ≠ s.pc) →
    row.wellFormed = true → (row.addr = none ∨ row.addr = some s.pc) →
    s.readVia pcReg s.pc = some row.word →
    (row.words = .one → step s = exec row.term (s.setReg pcReg (s.pc + 1))) ∧
    (row.words = .two → s.mapped pcReg (s.pc + 1) = true →
      step s = exec row.term (s.setReg pcReg (s.pc + 1 + 1)))

/-- 30_encoding.md section 5 (D3): an unassigned opcode that OPMAP does not bind faults. -/
def Obligations.UnassignedOpcodeFaults : Prop :=
  ∀ (s : State) (w : Word), s.readVia pcReg s.pc = some w → opField w < 24 →
    opmapRow s.params.opmap s.pc w = none → step s = .fault (.unassignedOpcode s.pc w)

/-- 30_encoding.md section 5 (D4): an unassigned mode of `store` or `load` faults. -/
def Obligations.UnassignedModeFaults : Prop :=
  ∀ (s : State) (w : Word), s.readVia pcReg s.pc = some w → (opField w = 25 ∨ opField w = 26) →
    (mField w = 7 ∨ mField w = 6 ∨ mField w = 1 ∨ mField w = 0) →
    step s = .fault (.unassignedMode s.pc w)

/-- 20_memory.md section 1, 60_exceptions.md section 4 (D6, D10): a fetch outside MEM_MAP faults,
the instruction's before the displacement's. -/
def Obligations.UnmappedFetchFaults : Prop :=
  ∀ s : State, (s.mapped pcReg s.pc = false → step s = .fault (.unmappedAddress s.pc)) ∧
    (∀ w : Word, s.readVia pcReg s.pc = some w → instrLength s.params.opmap s.pc w = 2 →
      s.mapped pcReg (s.pc + 1) = false → step s = .fault (.unmappedAddress (s.pc + 1)))

/-- 20_memory.md section 1 (D2, log entry 14): the pc, autoincrement and autodecrement wrap at the
ends of the address space. That the word stored is the one before the modification where both are of
one register is the order of D5 (U6; log entry 11); that the flags stay in these modes, and the
tags, is C19 and D16 (log entries 24 and 16). -/
def Obligations.AddressArithmeticWraps : Prop :=
  (∀ (s : State) (w : Word) (i : Instr), s.pc = 19682 → s.readVia pcReg 19682 = some w →
    instrLength s.params.opmap 19682 w = 1 → decode s.params.opmap 19682 w 0 = .ok i →
    step s = exec i (s.setReg pcReg 0)) ∧
  (∀ (s : State) (r x : Reg), s.mapped x 19682 = true → s.reg x = 19682 →
    storesAt (exec (.store r .autoInc x) s) s r x 19682 0) ∧
  (∀ (s : State) (r x : Reg), s.mapped x 19682 = true → s.reg x = 0 →
    storesAt (exec (.store r .autoDec x) s) s r x 19682 19682)

/-! ## Store, load, load immediate -/

/-- 30_encoding.md section 5, R60: the word of all 2's steps the pc and changes nothing else, and so
does every register-mode `store r,r`; `load r,r` changes the flags alone. -/
def Obligations.NoOpWordChangesOnlyThePc : Prop :=
  (∀ s : State, s.readVia pcReg s.pc = some 19682 → step s = .next (s.setReg pcReg (s.pc + 1))) ∧
  (∀ (s : State) (r : Reg), s.readVia pcReg s.pc = some (wordOfFields 26 r (8 * 9 + r.val)) →
    step s = .next (s.setReg pcReg (s.pc + 1))) ∧
  (∀ (s : State) (r : Reg), ∃ t, exec (.load r .register r) s = .next t ∧ regsSameBut s t [] ∧
    t.cc.s = sign3 (s.reg r) ∧ t.cc.v = 0 ∧ t.cc.c = 0 ∧ fixedSame s t ∧ memSame s t)

/-- 41_data_transfer.md, store in register mode: copies the register, and neither tag nor flag. -/
def Obligations.StoreRegisterModeCopiesTheRegister : Prop :=
  ∀ (s : State) (r x : Reg), ∃ t, exec (.store r .register x) s = .next t ∧
    t.reg x = s.reg r ∧ regsSameBut s t [x] ∧ t.cc = s.cc ∧ fixedSame s t ∧ memSame s t

/-- 41_data_transfer.md, store in the memory modes of 40_addressing.md section 2. Where the stored
or the index register is also the modified one the result is that of the order of D5 (log entry 11).
That a store leaves the flags in these modes is an inference the spec marks as its own (R90, C19;
log entry 24), and that it leaves the tags is D16 (log entry 16). -/
def Obligations.StoreMemoryModesStoreTheRegister : Prop :=
  ∀ (s : State) (r x : Reg),
    (s.mapped x (s.reg x) = true →
      storesAt (exec (.store r .indirect x) s) s r x (s.reg x) (s.reg x)) ∧
    (s.mapped x (s.reg x) = true →
      storesAt (exec (.store r .autoInc x) s) s r x (s.reg x) (s.reg x + 1)) ∧
    (s.mapped x (s.reg x - 1) = true →
      storesAt (exec (.store r .autoDec x) s) s r x (s.reg x - 1) (s.reg x - 1)) ∧
    (∀ d : Word, s.mapped x (s.reg x + d) = true →
      storesAt (exec (.store r (.indexed d) x) s) s r x (s.reg x + d) (s.reg x))

/-- 41_data_transfer.md, load in register mode: copies the register and its tag, sets the flags. -/
def Obligations.LoadRegisterModeCopiesRegisterAndTag : Prop :=
  ∀ (s : State) (r x : Reg), ∃ t, exec (.load r .register x) s = .next t ∧
    t.reg r = s.reg x ∧ regsSameBut s t [r] ∧ t.cc.s = sign3 (s.reg x) ∧ t.cc.v = 0 ∧
    t.cc.c = 0 ∧ t.params = s.params ∧ memSame s t ∧ (s.tags = none → t.tags = none) ∧
    (∀ tg : Vector Tag 9, s.tags = some tg → ∃ tg' : Vector Tag 9, t.tags = some tg' ∧
      tg'[r] = tg[x] ∧ ∀ i : Reg, i ≠ r → tg'[i] = tg[i])

/-- 41_data_transfer.md, load in the memory modes of 40_addressing.md section 2. The loaded value
wins over the modification of the same register (D5; log entry 11). That a load sets the flags in
these modes is an inference the spec marks as its own (R91, C19; log entry 24), and that it leaves
the tags is D16 (log entry 16). -/
def Obligations.LoadMemoryModesLoadTheWord : Prop :=
  ∀ (s : State) (r x : Reg),
    (s.mapped x (s.reg x) = true →
      loadsAt (exec (.load r .indirect x) s) s r x (s.reg x) (s.reg x)) ∧
    (s.mapped x (s.reg x) = true →
      loadsAt (exec (.load r .autoInc x) s) s r x (s.reg x) (s.reg x + 1)) ∧
    (s.mapped x (s.reg x - 1) = true →
      loadsAt (exec (.load r .autoDec x) s) s r x (s.reg x - 1) (s.reg x - 1)) ∧
    (∀ d : Word, s.mapped x (s.reg x + d) = true →
      loadsAt (exec (.load r (.indexed d) x) s) s r x (s.reg x + d) (s.reg x))

/-- 20_memory.md sections 1 and 2, 42_legacy_operands.md section 3 (D6; log entry 8): a memory-mode
`store` or `load`, and a below-frontier term whose starred operand is outside MEM_MAP, fault with the
address used: that in the register, or the one before it with the suffix `-`. Of two starred operands
the source is read first, in the order of D5 (log entries 11 and 15). -/
def Obligations.UnmappedOperandFaults : Prop :=
  (∀ (s : State) (r x : Reg) (m : Mode) (a : Word), modeAddress m (s.reg x) = some a →
    s.mapped x a = false → exec (.store r m x) s = .fault (.unmappedAddress a) ∧
      exec (.load r m x) s = .fault (.unmappedAddress a)) ∧
  (∀ (s : State) (a : Suffix) (r : Reg) (dst : Operand) (e : Word),
    e = (if a = .dec then s.reg r - 1 else s.reg r) → s.mapped r e = false →
    ((Instr.add a (.star r) dst).wellFormed s.params.legacyConst = true →
      exec (.add a (.star r) dst) s = .fault (.unmappedAddress e)) ∧
    ((Instr.sub a (.star r) dst).wellFormed s.params.legacyConst = true →
      exec (.sub a (.star r) dst) s = .fault (.unmappedAddress e))) ∧
  (∀ (s : State) (a : Suffix) (src : Operand) (r : Reg) (v e : Word), operandIs a s src v →
    e = (if a = .dec then s.reg r - 1 else s.reg r) → s.mapped r e = false →
    ((Instr.add a src (.star r)).wellFormed s.params.legacyConst = true →
      exec (.add a src (.star r)) s = .fault (.unmappedAddress e)) ∧
    ((Instr.sub a src (.star r)).wellFormed s.params.legacyConst = true →
      exec (.sub a src (.star r)) s = .fault (.unmappedAddress e)) ∧
    ((Instr.addc a src (.star r)).wellFormed s.params.legacyConst = true →
      exec (.addc a src (.star r)) s = .fault (.unmappedAddress e)) ∧
    ((Instr.subb a src (.star r)).wellFormed s.params.legacyConst = true →
      exec (.subb a src (.star r)) s = .fault (.unmappedAddress e))) ∧
  (∀ (s : State) (n : CountField) (r : Reg), s.mapped r (s.reg r) = false →
    exec (.sl .plain n (.star r)) s = .fault (.unmappedAddress (s.reg r)) ∧
      exec (.sru .plain n (.star r)) s = .fault (.unmappedAddress (s.reg r)) ∧
      exec (.srs .plain n (.star r)) s = .fault (.unmappedAddress (s.reg r)))

/-- R92, R56: a word whose `op` is 220 is a one-word `loadi` of its `r` and `addr` fields, which
loads the sign-extended constant and reports on it; no field value faults. -/
def Obligations.LoadiLoadsTheSignExtendedConstant : Prop :=
  (∀ (s : State) (w : Word), s.readVia pcReg s.pc = some w → opField w = 24 →
    step s = exec (.loadi (rField w) (addrField w)) (s.setReg pcReg (s.pc + 1))) ∧
  (∀ (s : State) (r : Reg) (k : Fin 81), ∃ t, exec (.loadi r k) s = .next t ∧
    sv (t.reg r) = (if k.val ≤ 40 then (k.val : Int) else (k.val : Int) - 81) ∧
    t.cc.s = sign3 (t.reg r) ∧ t.cc.v = 0 ∧ t.cc.c = 0 ∧ regsSameBut s t [r] ∧
    fixedSame s t ∧ memSame s t)

/-- 40_addressing.md section 4 (the order of D5, log entry 11): the forms whose result depends on
it. Each form is run by a step at address `A`, and `next` is the address after its words. -/
def Obligations.StepOrderDecidesTheseForms : Prop :=
  (∀ (s : State) (r : Reg), s.mapped r (s.reg r) = true →
    ∃ t, exec (.load r .autoInc r) s = .next t ∧ t.reg r = s.cell (s.place r (s.reg r))) ∧
  (∀ (s : State) (r : Reg), s.mapped r (s.reg r) = true →
    ∃ t, exec (.store r .autoInc r) s = .next t ∧ t.cell (s.place r (s.reg r)) = s.reg r ∧
      t.reg r = s.reg r + 1) ∧
  (∀ (s : State) (r : Reg), s.mapped r (s.reg r - 1) = true →
    ∃ t, exec (.store r .autoDec r) s = .next t ∧ t.cell (s.place r (s.reg r - 1)) = s.reg r ∧
      t.reg r = s.reg r - 1) ∧
  (∀ (s : State) (x : Reg) (d : Word), x ≠ pcReg →
    s.readVia pcReg s.pc = some (wordOfFields 26 pcReg (2 * 9 + x.val)) →
    s.readVia pcReg (s.pc + 1) = some d → s.mapped x (s.reg x + d) = true →
    ∃ t, step s = .next t ∧ t.cell (s.place x (s.reg x + d)) = s.pc + 1 + 1) ∧
  (∀ (s : State) (r : Reg) (d : Word), r ≠ pcReg →
    s.readVia pcReg s.pc = some (wordOfFields 26 r (2 * 9 + 8)) →
    s.readVia pcReg (s.pc + 1) = some d → s.mapped pcReg (s.pc + 1 + 1 + d) = true →
    ∃ t, step s = .next t ∧ t.cell (s.place pcReg (s.pc + 1 + 1 + d)) = s.reg r) ∧
  (∀ (s : State) (r : Reg) (d : Word),
    s.readVia pcReg s.pc = some (wordOfFields 25 r (2 * 9 + 8)) →
    s.readVia pcReg (s.pc + 1) = some d → s.mapped pcReg (s.pc + 1 + 1 + d) = true →
    ∃ t, step s = .next t ∧ t.reg r = s.cell (s.place pcReg (s.pc + 1 + 1 + d))) ∧
  (∀ (s : State) (r : Reg), r ≠ pcReg →
    s.readVia pcReg s.pc = some (wordOfFields 26 r (4 * 9 + 8)) →
    s.mapped pcReg (s.pc + 1) = true →
    ∃ t, step s = .next t ∧ t.cell (s.place pcReg (s.pc + 1)) = s.reg r ∧ t.pc = s.pc + 1 + 1)

/-- 40_addressing.md section 3: what a push puts on a stack a pop takes off, in both directions, and
the pointer comes back, whatever the pc is between the two, for a pointer that is neither the pc nor
the register popped. That a pushed pointer is pushed as it was is the order of D5 (U6; log entry
11). -/
def Obligations.PushThenPopRestores : Prop :=
  ∀ (s : State) (r q p : Reg) (pc' : Word), p ≠ pcReg → q ≠ p →
    (s.mapped p (s.reg p) = true →
      ∃ t u, exec (.store r .autoInc p) s = .next t ∧
        exec (.load q .autoDec p) (t.setReg pcReg pc') = .next u ∧
        u.reg q = s.reg r ∧ u.reg p = s.reg p) ∧
    (s.mapped p (s.reg p - 1) = true →
      ∃ t u, exec (.store r .autoDec p) s = .next t ∧
        exec (.load q .autoInc p) (t.setReg pcReg pc') = .next u ∧
        u.reg q = s.reg r ∧ u.reg p = s.reg p)

/-- 70_reset_and_hazards.md section 3: `store r,pc` with `x[r]` its own address runs for ever. -/
def Obligations.JumpToItselfNeverStops : Prop :=
  ∀ (s : State) (r : Reg), r ≠ pcReg → s.reg r = s.pc →
    s.readVia pcReg s.pc = some (wordOfFields 26 r (8 * 9 + 8)) →
    step s = .next s ∧ ∀ k : Nat, runsFor k s

/-- 30_encoding.md section 6 (D21; log entry 22): the words the assembler makes of `loadi r,k`, for
any `k`, load `k` modulo 3^9, report on it, and leave the pc past them unless the pc is the register
loaded. For a `k` outside the field they are a memory load: with `r` the pc its result is the order
of D5 (U5; log entry 11), its flags are C19 (log entry 24) and its tags D16 (log entry 16). -/
def Obligations.AssembledLoadiLoadsTheConstant : Prop :=
  ∀ (s : State) (r : Reg) (k : Int),
    (∀ (j : Nat) (w : Word), (assembleLoadi r k)[j]? = some w →
      s.readVia pcReg (s.pc + Word.ofNat j) = some w) →
    ∃ t, step s = .next t ∧ t.reg r = Word.ofInt k ∧
      (r ≠ pcReg → t.pc = s.pc + Word.ofNat (assembleLoadi r k).length) ∧
      regsSameBut s t [r, pcReg] ∧ t.cc.s = sign3 (Word.ofInt k) ∧ t.cc.v = 0 ∧ t.cc.c = 0 ∧
      fixedSame s t ∧ memSame s t

/-! ## Arithmetic -/

/-- 43_arithmetic.md section 2, `add`, with any operands and suffix that make a term. Operands read
before the modification and the result winning over it (U9) are the order of D5 (log entry 11), the
operand forms are D13 (log entry 20), the unchanged tags D16 (log entry 16). -/
def Obligations.AddSumsAndReports : Prop :=
  ∀ (s : State) (a : Suffix) (src dst : Operand) (v d : Word),
    (Instr.add a src dst).wellFormed s.params.legacyConst = true →
    operandIs a s src v → operandIs a s dst d →
    termLeaves (exec (.add a src dst) s) a src dst s (Word.ofNat (d.val + v.val))
      { s := sign3 (Word.ofNat (d.val + v.val))
        v := if sv d + sv v < -9841 ∨ 9841 < sv d + sv v then 1 else 0
        c := if 19683 ≤ d.val + v.val then 1 else 0 }

/-- 43_arithmetic.md section 2, `sub`: the difference; `c` is 1 exactly when there was no borrow;
`v` on the exact difference (D19; log entry 12). Operands read before the modification and the
result winning over it (U9) are the order of D5 (log entry 11), the operand forms are D13 (log entry
20), the unchanged tags D16 (log entry 16). -/
def Obligations.SubDiffersAndReports : Prop :=
  ∀ (s : State) (a : Suffix) (src dst : Operand) (v d : Word),
    (Instr.sub a src dst).wellFormed s.params.legacyConst = true →
    operandIs a s src v → operandIs a s dst d →
    termLeaves (exec (.sub a src dst) s) a src dst s (d - v)
      { s := sign3 (d - v)
        v := if sv d - sv v < -9841 ∨ 9841 < sv d - sv v then 1 else 0
        c := if v.val ≤ d.val then 1 else 0 }

/-- 43_arithmetic.md section 2, `addc`: adds the carry trit as it stands, 2 included (D19, U11; log
entries 12 and 13). Operands read before the modification and the result winning over it (U9) are
the order of D5 (log entry 11), the operand forms and the suffix are D13 and C10 (log entry 20), the
unchanged tags D16 (log entry 16). -/
def Obligations.AddcAddsTheCarryTrit : Prop :=
  ∀ (s : State) (a : Suffix) (src dst : Operand) (v d : Word),
    (Instr.addc a src dst).wellFormed s.params.legacyConst = true →
    operandIs a s src v → operandIs a s dst d →
    termLeaves (exec (.addc a src dst) s) a src dst s
      (Word.ofNat (d.val + v.val + s.cc.c.val))
      { s := sign3 (Word.ofNat (d.val + v.val + s.cc.c.val))
        v := if sv d + sv v + (s.cc.c.val : Int) < -9841 ∨ 9841 < sv d + sv v + (s.cc.c.val : Int)
          then 1 else 0
        c := if d.val + v.val + s.cc.c.val < 19683 then 0
          else if d.val + v.val + s.cc.c.val < 39366 then 1 else 2 }

/-- 43_arithmetic.md section 2, `subb`: `dst - src - 1 + c`, `c` 1 for no borrow (D19, U11; log
entries 12 and 13). Operands read before the modification and the result winning over it (U9) are
the order of D5 (log entry 11), the operand forms and the suffix are D13 and C10 (log entry 20), the
unchanged tags D16 (log entry 16). -/
def Obligations.SubbTakesTheBorrow : Prop :=
  ∀ (s : State) (a : Suffix) (src dst : Operand) (v d : Word),
    (Instr.subb a src dst).wellFormed s.params.legacyConst = true →
    operandIs a s src v → operandIs a s dst d →
    termLeaves (exec (.subb a src dst) s) a src dst s
      (Word.ofInt ((d.val : Int) - v.val - 1 + s.cc.c.val))
      { s := sign3 (Word.ofInt ((d.val : Int) - v.val - 1 + s.cc.c.val))
        v := if sv d - sv v - 1 + (s.cc.c.val : Int) < -9841 ∨
            9841 < sv d - sv v - 1 + (s.cc.c.val : Int) then 1 else 0
        c := if d.val + s.cc.c.val < v.val + 1 then 0
          else if d.val + s.cc.c.val < v.val + 1 + 19683 then 1 else 2 }

/-- 42_legacy_operands.md section 2 (D13; log entry 20), shown on `add`: a starred operand, source
or destination, is the word at `x[r]` and leaves `x[r]` as it was with no suffix, the word at `x[r]`
and leaves `x[r]` one further with `+`, the word before it and leaves `x[r]` there with `-`. -/
def Obligations.SuffixModifiesTheStarredRegister : Prop :=
  ∀ (s : State) (r q : Reg), q ≠ r →
    (s.mapped r (s.reg r) = true →
      (∃ t, exec (.add .plain (.star r) (.reg q)) s = .next t ∧ t.reg r = s.reg r ∧
        t.reg q = s.reg q + s.cell (s.place r (s.reg r))) ∧
      (∃ t, exec (.add .inc (.star r) (.reg q)) s = .next t ∧ t.reg r = s.reg r + 1 ∧
        t.reg q = s.reg q + s.cell (s.place r (s.reg r))) ∧
      (∃ t, exec (.add .plain (.reg q) (.star r)) s = .next t ∧ t.reg r = s.reg r ∧
        t.cell (s.place r (s.reg r)) = s.cell (s.place r (s.reg r)) + s.reg q) ∧
      (∃ t, exec (.add .inc (.reg q) (.star r)) s = .next t ∧ t.reg r = s.reg r + 1 ∧
        t.cell (s.place r (s.reg r)) = s.cell (s.place r (s.reg r)) + s.reg q)) ∧
    (s.mapped r (s.reg r - 1) = true →
      (∃ t, exec (.add .dec (.star r) (.reg q)) s = .next t ∧ t.reg r = s.reg r - 1 ∧
        t.reg q = s.reg q + s.cell (s.place r (s.reg r - 1))) ∧
      (∃ t, exec (.add .dec (.reg q) (.star r)) s = .next t ∧ t.reg r = s.reg r - 1 ∧
        t.cell (s.place r (s.reg r - 1)) = s.cell (s.place r (s.reg r - 1)) + s.reg q))

/-- 43_arithmetic.md section 3: `add r1,r3` then `addc r2,r4` is the 18-trit sum, low word first,
whatever the pc is between the two; and the last carry is that of the sum. -/
def Obligations.EighteenTritAdd : Prop :=
  ∀ (s : State) (a b c d : Reg) (pc' : Word), c ≠ b → c ≠ d → b ≠ pcReg → c ≠ pcReg → d ≠ pcReg →
    ∃ t u, exec (.add .plain (.reg a) (.reg c)) s = .next t ∧
      exec (.addc .plain (.reg b) (.reg d)) (t.setReg pcReg pc') = .next u ∧
      (u.reg d).val * 19683 + (u.reg c).val + u.cc.c.val * 387420489 =
        ((s.reg d).val * 19683 + (s.reg c).val) + ((s.reg b).val * 19683 + (s.reg a).val)

/-- 43_arithmetic.md section 3: `sub r1,r3` then `subb r2,r4` is the 18-trit difference, and the
last carry is 1 exactly when there was no borrow. -/
def Obligations.EighteenTritSubtract : Prop :=
  ∀ (s : State) (a b c d : Reg) (pc' : Word), c ≠ b → c ≠ d → b ≠ pcReg → c ≠ pcReg → d ≠ pcReg →
    ∃ t u, exec (.sub .plain (.reg a) (.reg c)) s = .next t ∧
      exec (.subb .plain (.reg b) (.reg d)) (t.setReg pcReg pc') = .next u ∧
      ((u.reg d).val * 19683 + (u.reg c).val : Int) =
        ((s.reg d).val * 19683 + (s.reg c).val : Int) -
          ((s.reg b).val * 19683 + (s.reg a).val : Int) + (1 - u.cc.c.val) * 387420489

/-- 42_legacy_operands.md section 3 (the order of D5, log entry 11): both pc-relative branches reach
`target`, and set the flags from it. The pc is past the one-word term. -/
def Obligations.PcRelativeAddReachesItsTarget : Prop :=
  ∀ (s : State) (target : Word),
    (s.params.legacyConst.allows (target - s.pc) = true →
      ∃ t, exec (.add .plain (.const (target - s.pc)) (.reg pcReg)) s = .next t ∧
        t.pc = target ∧ t.cc.s = sign3 target) ∧
    (s.readVia pcReg s.pc = some (target - s.pc) →
      ∃ t, exec (.add .inc (.star pcReg) (.reg pcReg)) s = .next t ∧
        t.pc = target ∧ t.cc.s = sign3 target)

/-! ## Shifts -/

/-- 44_shifts.md, `sl`. That any difference from the exact product sets `v` is C15 (log entry 21).
The count `k` is 9 for the field 0, else the field. The destination forms are D13 (log entry 20),
the unchanged tags D16 (log entry 16). -/
def Obligations.SlMultipliesAndReports : Prop :=
  ∀ (s : State) (n : CountField) (k : Nat) (dst : Operand) (d : Word),
    k = (if n.val = 0 then 9 else n.val) →
    dst.constOk s.params.legacyConst = true → operandIs .plain s dst d →
    termLeaves (exec (.sl .plain n dst) s) .plain dst dst s
      (Word.ofNat (d.val * 3 ^ k))
      { s := sign3 (Word.ofNat (d.val * 3 ^ k))
        v := if sv (Word.ofNat (d.val * 3 ^ k)) = sv d * 3 ^ k then 0 else 1
        c := trit d (9 - k) }

/-- 44_shifts.md, `sru`; the result is zero or positive. The count `k` is 9 for the field 0, else
the field. The destination forms are D13 (log entry 20), the unchanged tags D16 (log entry 16). -/
def Obligations.SruDividesAndReports : Prop :=
  ∀ (s : State) (n : CountField) (k : Nat) (dst : Operand) (d : Word),
    k = (if n.val = 0 then 9 else n.val) →
    dst.constOk s.params.legacyConst = true → operandIs .plain s dst d →
    d.val / 3 ^ k ≤ 6560 ∧
    termLeaves (exec (.sru .plain n dst) s) .plain dst dst s
      (Word.ofNat (d.val / 3 ^ k))
      { s := if d.val / 3 ^ k = 0 then 0 else 1
        v := if 3 ^ k ∣ d.val then 0 else 1
        c := trit d (k - 1) }

/-- 44_shifts.md, `srs`: rounds the signed value toward minus infinity. That the section is the
signed shift is C6, and the mnemonic the spec's own choice (D20; log entry 21). The count `k` is 9
for the field 0, else the field. The destination forms are D13 (log entry 20), the unchanged tags
D16 (log entry 16). -/
def Obligations.SrsDividesSignedAndReports : Prop :=
  ∀ (s : State) (n : CountField) (k : Nat) (dst : Operand) (d : Word),
    k = (if n.val = 0 then 9 else n.val) →
    dst.constOk s.params.legacyConst = true → operandIs .plain s dst d →
    ∃ result : Word, sv result = sv d / 3 ^ k ∧
      termLeaves (exec (.srs .plain n dst) s) .plain dst dst s result
        { s := sign3 result
          v := if 3 ^ k ∣ d.val then 0 else 1
          c := trit d (k - 1) }

/-- 44_shifts.md: the three shifts as movements of trits: zeros enter at the bottom, at the top, and
the sign fill at the top. -/
def Obligations.ShiftsMoveTrits : Prop :=
  ∀ (d : Word) (n i : Nat), 1 ≤ n → n ≤ 9 → i < 9 →
    trit (slOp n d).1 i = (if i < n then 0 else trit d (i - n)) ∧
    trit (sruOp n d).1 i = (if i + n < 9 then trit d (i + n) else 0) ∧
    trit (srsOp n d).1 i =
      (if i + n < 9 then trit d (i + n) else if 0 ≤ sv d then 0 else 2)

/-! ## Branches -/

/-- 45_branches.md sections 2 and 3: the branches on the sign trit. The target, the fall-through and
the frame are 45_branches.md section 1 (D14; log entry 6), the tags D16 (log entry 16). -/
def Obligations.SignBranchesTestTheSign : Prop :=
  branchesOn .beq (fun k => k.s = 0) ∧ branchesOn .bne (fun k => k.s ≠ 0) ∧
  branchesOn .bpos (fun k => k.s = 1) ∧ branchesOn .bnpos (fun k => k.s ≠ 1) ∧
  branchesOn .bneg (fun k => k.s = 2)

/-- 45_branches.md section 2: the signed comparisons. The target, the fall-through and the frame are
45_branches.md section 1 (D14; log entry 6), the tags D16 (log entry 16). -/
def Obligations.SignedBranchesTestSignAndOverflow : Prop :=
  branchesOn .blts (fun k => (k.s = 2 ∧ k.v = 0) ∨ (k.s = 1 ∧ k.v = 1)) ∧
  branchesOn .bles (fun k => ((k.s = 2 ∧ k.v = 0) ∨ (k.s = 1 ∧ k.v = 1)) ∨ k.s = 0) ∧
  branchesOn .bges (fun k => ((k.s = 1 ∧ k.v = 0) ∨ (k.s = 2 ∧ k.v = 1)) ∨ k.s = 0) ∧
  branchesOn .bgts (fun k => (k.s = 1 ∧ k.v = 0) ∨ (k.s = 2 ∧ k.v = 1))

/-- 45_branches.md section 2: the unsigned comparisons. The target, the fall-through and the frame
are 45_branches.md section 1 (D14; log entry 6), the tags D16 (log entry 16). -/
def Obligations.UnsignedBranchesTestTheCarry : Prop :=
  branchesOn .bltu (fun k => k.c = 0) ∧ branchesOn .bleu (fun k => k.c = 0 ∨ k.s = 0) ∧
  branchesOn .bgeu (fun k => k.c ≠ 0) ∧ branchesOn .bgtu (fun k => k.c ≠ 0 ∧ k.s ≠ 0)

/-- 45_branches.md section 3: `bvr`; `bvs` with its printed condition corrected (90_conflicts.md
C11; log entry 17); `bnneg`, whose mnemonic is the spec's own choice (D20; log entry 21). The
target, the fall-through and the frame are 45_branches.md section 1 (D14; log entry 6), the tags D16
(log entry 16). -/
def Obligations.OverflowAndNonNegativeBranches : Prop :=
  branchesOn .bvr (fun k => k.v = 0) ∧ branchesOn .bvs (fun k => k.v ≠ 0) ∧
  branchesOn .bnneg (fun k => k.s ≠ 2)

/-- 45_branches.md section 1 (D19): after `sub src,dst`, whatever the pc is by then, each of the ten
comparison branches is taken exactly when its relation holds between the destination and the source
as they were. That rests on D19 (log entry 12), on the order of D5 where a starred register is also
the other operand (U9; log entry 11), on D13 for the forms (log entry 20) and on D14 for the branch
(log entry 6). -/
def Obligations.BranchesReportTheComparison : Prop :=
  ∀ (s : State) (a : Suffix) (src dst : Operand) (v d : Word),
    (Instr.sub a src dst).wellFormed s.params.legacyConst = true →
    operandIs a s src v → operandIs a s dst d →
    ∃ t, exec (.sub a src dst) s = .next t ∧ ∀ pc' : Word,
      takenIff .beq (t.setReg pcReg pc') (d = v) ∧
      takenIff .bne (t.setReg pcReg pc') (d ≠ v) ∧
      takenIff .blts (t.setReg pcReg pc') (sv d < sv v) ∧
      takenIff .bles (t.setReg pcReg pc') (sv d ≤ sv v) ∧
      takenIff .bges (t.setReg pcReg pc') (sv d ≥ sv v) ∧
      takenIff .bgts (t.setReg pcReg pc') (sv d > sv v) ∧
      takenIff .bltu (t.setReg pcReg pc') (d.val < v.val) ∧
      takenIff .bleu (t.setReg pcReg pc') (d.val ≤ v.val) ∧
      takenIff .bgeu (t.setReg pcReg pc') (d.val ≥ v.val) ∧
      takenIff .bgtu (t.setReg pcReg pc') (d.val > v.val)

/-! ## Whole-machine rules -/

/-- 10_state.md section 3: `store` and the branches leave the flags alone; `load` and `loadi` leave
`v` and `c` 0; and no instruction leaves `v` 2 that was not there before (inferences the spec marks
as its own, R20, R22, R91; log entries 23 and 24). For `load r,*r++` and `load r,*--r` the register
afterwards is the one loaded by the order of D5 (U5; log entry 11). -/
def Obligations.OnlyTheseSetTheFlags : Prop :=
  ∀ (i : Instr) (s t : State), exec i s = .next t →
    (leavesFlags i = true → t.cc = s.cc) ∧
    (∀ (r x : Reg) (m : Mode), i = .load r m x →
      t.cc.s = sign3 (t.reg r) ∧ t.cc.v = 0 ∧ t.cc.c = 0) ∧
    (∀ (r : Reg) (k : Fin 81), i = .loadi r k →
      t.cc.s = sign3 (t.reg r) ∧ t.cc.v = 0 ∧ t.cc.c = 0) ∧
    (t.cc.v = 2 → t.cc = s.cc)

/-- 20_memory.md section 2: an instruction other than a memory-mode `store` and a term with a
starred destination leaves memory as it was. -/
def Obligations.OnlyStoresAndStarredTermsWriteMemory : Prop :=
  ∀ (i : Instr) (s t : State), exec i s = .next t → mayWriteMemory i = false → t.mem = s.mem

/-- 10_state.md section 2 (D16): only a register-mode `load` changes a tag. -/
def Obligations.OnlyRegisterLoadChangesTags : Prop :=
  ∀ (i : Instr) (s t : State), exec i s = .next t → mayCopyTag i = false → t.tags = s.tags

/-- 42_legacy_operands.md section 2 (D13, U16): what is refused is exactly what is no term, with
constants from LEGACY_CONST. -/
def Obligations.RefusedExactlyNonTerms : Prop :=
  ∀ (i : Instr) (s : State),
    (∃ why, exec i s = .refused why) ↔ i.wellFormed s.params.legacyConst = false

/-- 42_legacy_operands.md section 2 (D13, U16; P11): what is refused, by which name. The spec says
only 'refuse'; the names, and which is answered where several apply, are the model's (log entry 20).
-/
def Obligations.NonTermsAreRefusedByName : Prop :=
  (∀ (s : State) (a : Suffix) (src dst : Operand), src.isReg = false →
    exec (.addc a src dst) s = .refused .sourceNotRegister ∧
      exec (.subb a src dst) s = .refused .sourceNotRegister) ∧
  (∀ (s : State) (a : Suffix) (n : CountField) (dst : Operand), a ≠ .plain →
    exec (.sl a n dst) s = .refused .suffixOnShift ∧
      exec (.sru a n dst) s = .refused .suffixOnShift ∧
      exec (.srs a n dst) s = .refused .suffixOnShift) ∧
  (∀ (s : State) (a : Suffix) (p q : Reg), a ≠ .plain →
    exec (.add a (.star p) (.star q)) s = .refused .suffixWithTwoStars ∧
      exec (.sub a (.star p) (.star q)) s = .refused .suffixWithTwoStars) ∧
  (∀ (s : State) (a : Suffix) (src dst : Operand), a ≠ .plain → src.isStar = false →
    dst.isStar = false →
    exec (.add a src dst) s = .refused .suffixWithoutStar ∧
      exec (.sub a src dst) s = .refused .suffixWithoutStar ∧
      (src.isReg = true → exec (.addc a src dst) s = .refused .suffixWithoutStar ∧
        exec (.subb a src dst) s = .refused .suffixWithoutStar)) ∧
  (∀ (s : State) (a : Suffix) (src dst : Operand) (k : Word),
    a = .plain ∨ src.isStar ≠ dst.isStar → src = .const k ∨ dst = .const k →
    s.params.legacyConst.allows k = false →
    exec (.add a src dst) s = .refused .constantOutsideSet ∧
      exec (.sub a src dst) s = .refused .constantOutsideSet ∧
      (src.isReg = true → exec (.addc a src dst) s = .refused .constantOutsideSet ∧
        exec (.subb a src dst) s = .refused .constantOutsideSet)) ∧
  (∀ (s : State) (n : CountField) (k : Word), s.params.legacyConst.allows k = false →
    exec (.sl .plain n (.const k)) s = .refused .constantOutsideSet ∧
      exec (.sru .plain n (.const k)) s = .refused .constantOutsideSet ∧
      exec (.srs .plain n (.const k)) s = .refused .constantOutsideSet)

/-- 60_exceptions.md sections 1 and 2 (D10): where every place holds memory, every term of the
language, whatever its operands, runs to a next state. -/
def Obligations.EveryTermRunsOnAllRam : Prop :=
  ∀ (i : Instr) (s : State), s.allRam → i.wellFormed s.params.legacyConst = true →
    ∃ t, exec i s = .next t

/-- 60_exceptions.md section 1 (D3, D4, D6): where every place holds memory, a step faults only on a
word whose opcode or mode is unassigned, and names it. -/
def Obligations.AllRamFaultsOnlyOnUnassignedWords : Prop :=
  ∀ (s : State) (f : Fault), s.allRam → step s = .fault f →
    ∃ w, s.readVia pcReg s.pc = some w ∧
      ((f = .unassignedOpcode s.pc w ∧ opField w < 24 ∧ opmapRow s.params.opmap s.pc w = none) ∨
       (f = .unassignedMode s.pc w ∧ (opField w = 25 ∨ opField w = 26) ∧
         (mField w = 7 ∨ mField w = 6 ∨ mField w = 1 ∨ mField w = 0)))

/-- 20_memory.md section 1: every step keeps memory in the model's canonical form (log entry 5), and
on the untagged machine within the 19683 addresses. -/
def Obligations.StepKeepsCanonicalMemory : Prop :=
  ∀ s t : State, s.memInv → step s = .next t → t.memInv

/-- 10_state.md section 3 (an inference the spec marks as its own, R20): no step leaves 2 in the
overflow trit. -/
def Obligations.StepNeverSetsOverflowToTwo : Prop :=
  ∀ s t : State, s.vInv → step s = .next t → t.vInv

/-- 10_state.md section 2 (D16) and 00_scope.md section 4: no step changes a parameter, adds or
removes the tags, or makes a tag that no register had. -/
def Obligations.StepCreatesNoTagAndKeepsParameters : Prop :=
  ∀ s t : State, step s = .next t → t.params = s.params ∧ (s.tags = none ↔ t.tags = none) ∧
    ∀ tg tg' : Vector Tag 9, s.tags = some tg → t.tags = some tg' →
      ∀ i : Reg, ∃ j : Reg, tg'[i] = tg[j]

/-- What reset leaves. The registers, the pc and the flags are the model's choice (DESIGN CHOICE,
log entries 1 and 2; R25 gives no value); memory holds its launch content (log entry 5). -/
def Obligations.ResetIsTheNamedState : Prop :=
  (∀ i : Reg, State.reset.reg i = 0) ∧ State.reset.cc = { s := 0, v := 0, c := 0 } ∧
    State.reset.tags = none ∧ State.reset.params = Params.base ∧
    ∀ p : Nat, State.reset.cell p = Config.launchWord p

/-- The invariants hold at reset: of the flags and of MEM_MAP this is the model's choice (log
entries 1 and 8; 20_memory.md section 3, D6). -/
def Obligations.ResetMeetsTheInvariants : Prop :=
  State.reset.memInv ∧ State.reset.vInv ∧ State.reset.allRam

/-- 70_reset_and_hazards.md section 3 (D11): a run is complete exactly at the first state, within
the fuel, whose pc is HALT_PC; the instruction there is not executed. -/
def Obligations.RunEndsFirstAtHaltPc : Prop :=
  ∀ (n : Nat) (s t : State), runToHalt n s = .complete t ↔
    ∃ k, k ≤ n ∧ Host.Core.run Sys2Proof.core k s = .next t ∧ t.params.haltPc = some t.pc ∧
      ∀ j, j < k → ∃ u : State, Host.Core.run Sys2Proof.core j s = .next u ∧
        u.params.haltPc ≠ some u.pc
end

