-- ==== Sys2Proof/Laws/Decode.lean ====
section
/-! SUPPORT. The fields of a word made from fields and back, and what the decoder's parts answer. -/

namespace Sys2Proof

/-- The fields of a word made from fields in range. -/
theorem fields_wordOfFields {op addr : Nat} (r : Reg) (ho : op < 27) (ha : addr < 81) :
    opField (wordOfFields op r addr) = op ∧ rField (wordOfFields op r addr) = r ∧
    (addrField (wordOfFields op r addr)).val = addr ∧
    mField (wordOfFields op r addr) = addr / 9 ∧
    (xField (wordOfFields op r addr)).val = addr % 9 := by
  have hr := r.isLt
  have hv : (wordOfFields op r addr).val = op * 729 + r.val * 81 + addr := by
    change (op * 729 + r.val * 81 + addr) % 19683 = _
    omega
  refine ⟨?_, ?_, ?_, ?_, ?_⟩
  · rw [opField, hv]; omega
  · apply Fin.ext; simp only [rField, Fin.ofNat, hv]; omega
  · simp only [addrField, Fin.ofNat, hv]; omega
  · rw [mField, hv]; omega
  · simp only [xField, Fin.ofNat, hv]; omega

/-- A word is made of its fields. -/
theorem wordOfFields_fields (w : Word) :
    wordOfFields (opField w) (rField w) (mField w * 9 + (xField w).val) = w ∧
    wordOfFields (opField w) (rField w) (addrField w).val = w := by
  have := w.isLt
  constructor <;> apply Fin.ext <;> simp only [wordOfFields, Word.ofNat] <;>
    simp only [opField, rField, mField, xField, addrField, Fin.ofNat] <;> omega

/-- A mode that decodes has that field and those further words. -/
theorem modeOf_ok {m : Nat} {d : Word} {mode : Mode} (h : modeOf m d = .ok mode) :
    mode.field = m ∧ (m ≠ 2 → mode.extraWords = []) ∧ (m = 2 → mode.extraWords = [d]) := by
  unfold modeOf at h
  split at h <;> first | (cases h; simp [Mode.field, Mode.extraWords]) | cases h

/-- A mode value that does not decode is none of the five. -/
theorem modeOf_error {m : Nat} {d : Word} {e : Reject} (h : modeOf m d = .error e) :
    e = .unassignedMode ∧ m ≠ 8 ∧ m ≠ 5 ∧ m ≠ 4 ∧ m ≠ 3 ∧ m ≠ 2 := by
  unfold modeOf at h
  split at h <;> cases h
  simp_all

/-- The word of a `store` or `load` and its displacement decode to it, and its length is by its
mode, at any address and under any OPMAP. -/
theorem decode_transfer (om : List OpmapRow) (A : Word) {op : Nat} (hop : op = 26 ∨ op = 25)
    (r x : Reg) (m : Mode) (d : Word) (hm : ∀ d', m = .indexed d' → d' = d) :
    decode om A (wordOfFields op r (m.field * 9 + x.val)) d =
      .ok (if op = 26 then .store r m x else .load r m x) ∧
    instrLength om A (wordOfFields op r (m.field * 9 + x.val)) = if m.field = 2 then 2 else 1 := by
  have hmf : m.field < 9 := by cases m <;> simp [Mode.field]
  have hx := x.isLt
  obtain ⟨h1, h2, -, h4, h5⟩ :=
    fields_wordOfFields (op := op) (addr := m.field * 9 + x.val) r (by omega) (by omega)
  generalize wordOfFields op r (m.field * 9 + x.val) = w at *
  have h4' : mField w = m.field := by omega
  have h5' : xField w = x := by apply Fin.ext; omega
  clear hmf h4 h5
  cases m with
  | indexed d' =>
    obtain rfl := hm d' rfl
    rcases hop with rfl | rfl <;>
      simp [instrLength, currentLength, decode, decodeCurrent, Mode.field, modeOf, Except.map, h1,
        h2, h4', h5']
  | _ =>
    rcases hop with rfl | rfl <;>
      simp [instrLength, currentLength, decode, decodeCurrent, Mode.field, modeOf, Except.map, h1,
        h2, h4', h5']

/-- A row that OPMAP answers is a well-formed row for that word. -/
theorem opmapRow_some {om : List OpmapRow} {A w : Word} {row : OpmapRow}
    (h : opmapRow om A w = some row) : row.wellFormed = true ∧ row.word = w := by
  have := List.find?_some h
  simp only [Bool.and_eq_true, decide_eq_true_eq] at this
  exact ⟨this.1, this.2.1⟩

/-- A row that is ill-formed, or is for another word or another address, is passed over. -/
theorem opmapRow_skip {om : List OpmapRow} {A w : Word} {q : OpmapRow}
    (h : q.wellFormed = false ∨ q.word ≠ w ∨ ∃ B, q.addr = some B ∧ B ≠ A) :
    opmapRow (q :: om) A w = opmapRow om A w := by
  refine List.find?_cons_of_neg ?_
  rcases h with h | h | ⟨B, hb, h⟩
  · simp [h]
  · simp [h]
  · simp [hb, h]

end Sys2Proof
end

