-- ==== Sys2Proof/Laws/State.lean ====
section
/-! SUPPORT. What each update of the state leaves in each field, and register reads after register
writes. -/

namespace Sys2Proof.Machine

section fields
variable (s : State) (i r x : Reg) (v : Word) (k : CC) (p : Nat)

@[simp] theorem setReg_tags : (s.setReg i v).tags = s.tags := rfl
@[simp] theorem setReg_cc : (s.setReg i v).cc = s.cc := rfl
@[simp] theorem setReg_mem : (s.setReg i v).mem = s.mem := rfl
@[simp] theorem setReg_params : (s.setReg i v).params = s.params := rfl
@[simp] theorem setReg_cell : (s.setReg i v).cell p = s.cell p := rfl

@[simp] theorem setCC_regs : (s.setCC k).regs = s.regs := rfl
@[simp] theorem setCC_tags : (s.setCC k).tags = s.tags := rfl
@[simp] theorem setCC_cc : (s.setCC k).cc = k := rfl
@[simp] theorem setCC_mem : (s.setCC k).mem = s.mem := rfl
@[simp] theorem setCC_params : (s.setCC k).params = s.params := rfl
@[simp] theorem setCC_reg : (s.setCC k).reg i = s.reg i := rfl
@[simp] theorem setCC_pc : (s.setCC k).pc = s.pc := rfl
@[simp] theorem setCC_cell : (s.setCC k).cell p = s.cell p := rfl

@[simp] theorem copyTag_regs : (s.copyTag r x).regs = s.regs := rfl
@[simp] theorem copyTag_cc : (s.copyTag r x).cc = s.cc := rfl
@[simp] theorem copyTag_mem : (s.copyTag r x).mem = s.mem := rfl
@[simp] theorem copyTag_params : (s.copyTag r x).params = s.params := rfl
@[simp] theorem copyTag_reg : (s.copyTag r x).reg i = s.reg i := rfl
@[simp] theorem copyTag_pc : (s.copyTag r x).pc = s.pc := rfl
@[simp] theorem copyTag_cell : (s.copyTag r x).cell p = s.cell p := rfl
@[simp] theorem copyTag_tags :
    (s.copyTag r x).tags = s.tags.map fun t => t.set r t[x] := rfl

@[simp] theorem placeWord_regs : (s.placeWord p v).regs = s.regs := rfl
@[simp] theorem placeWord_tags : (s.placeWord p v).tags = s.tags := rfl
@[simp] theorem placeWord_cc : (s.placeWord p v).cc = s.cc := rfl
@[simp] theorem placeWord_params : (s.placeWord p v).params = s.params := rfl
@[simp] theorem placeWord_reg : (s.placeWord p v).reg i = s.reg i := rfl
@[simp] theorem placeWord_pc : (s.placeWord p v).pc = s.pc := rfl
@[simp] theorem placeWord_mem : (s.placeWord p v).mem = s.mem.write p v := rfl

end fields

/-- A register reads the value just written to it, and every other register what it held. -/
theorem reg_setReg (s : State) (i j : Reg) (v : Word) :
    (s.setReg i v).reg j = if i = j then v else s.reg j := by
  simp [State.reg, State.setReg, Vector.getElem_set, Fin.ext_iff]

@[simp] theorem reg_setReg_self (s : State) (i : Reg) (v : Word) : (s.setReg i v).reg i = v := by
  simp [reg_setReg]

theorem reg_setReg_ne (s : State) {i j : Reg} (v : Word) (h : i ≠ j) :
    (s.setReg i v).reg j = s.reg j := by
  simp [reg_setReg, h]

@[simp] theorem pc_setReg_pc (s : State) (v : Word) : (s.setReg pcReg v).pc = v :=
  reg_setReg_self s pcReg v

theorem pc_setReg_ne (s : State) {i : Reg} (v : Word) (h : i ≠ pcReg) :
    (s.setReg i v).pc = s.pc :=
  reg_setReg_ne s v h

/-- Writing back the value a register holds changes nothing. -/
theorem setReg_reg_self (s : State) (i : Reg) : s.setReg i (s.reg i) = s := by
  simp [State.reg, State.setReg]

/-- The last write to a register stands. -/
theorem setReg_setReg (s : State) (i : Reg) (v w : Word) :
    (s.setReg i v).setReg i w = s.setReg i w := by
  simp [State.setReg]

/-- Two states that agree in every register and field are equal. -/
theorem state_ext {s t : State} (hr : ∀ i : Reg, s.reg i = t.reg i) (ht : s.tags = t.tags)
    (hc : s.cc = t.cc) (hm : s.mem = t.mem) (hp : s.params = t.params) : s = t := by
  obtain ⟨sr, st, sc, sm, sp⟩ := s
  obtain ⟨tr, tt, tc, tm, tp⟩ := t
  have : sr = tr := Vector.ext fun i hi => hr ⟨i, hi⟩
  simp_all

end Sys2Proof.Machine
end

