-- ==== Sys2Proof/Laws/Memory.lean ====
section
/-! SUPPORT. Reads after writes of storage, and the canonical form. -/

namespace Sys2Proof.Machine

/-- A place reads the word just written to it, and every other place what it held. -/
theorem read_write (m : Memory) (p q : Nat) (v : Word) :
    (m.write p v).read q = if p = q then some v else m.read q := by
  induction m with
  | nil => simp [Memory.write, Memory.read]
  | cons e m ih =>
    obtain ⟨k, w⟩ := e
    by_cases h1 : p < k
    · simp [Memory.write, h1, Memory.read]
    · by_cases h2 : p = k
      · subst h2
        simp only [Memory.write, lt_irrefl, if_false, if_true, Memory.read]
        split <;> rfl
      · simp only [Memory.write, h1, h2, if_false, Memory.read, ih]
        by_cases h3 : k = q
        · subst h3; simp [h2]
        · simp [h3]

/-- Every entry of a canonical memory lies above its head. -/
theorem wf_head_lt {p : Nat} {w : Word} {m : Memory} (h : Memory.wf ((p, w) :: m) = true) :
    ∀ e ∈ m, p < e.1 := by
  induction m generalizing p w with
  | nil => simp
  | cons e m ih =>
    obtain ⟨q, u⟩ := e
    simp only [Memory.wf, Bool.and_eq_true, decide_eq_true_eq] at h
    intro e he
    rcases List.mem_cons.1 he with rfl | he
    · exact h.1
    · exact h.1.trans (ih h.2 e he)

/-- The tail of a canonical memory is canonical. -/
theorem wf_tail {e : Nat × Word} {m : Memory} (h : Memory.wf (e :: m) = true) :
    Memory.wf m = true := by
  cases m with
  | nil => rfl
  | cons f m => simp only [Memory.wf, Bool.and_eq_true] at h; exact h.2

/-- An entry below every entry of a canonical memory can stand before it. -/
theorem wf_cons {p : Nat} {w : Word} {m : Memory} (h : ∀ e ∈ m, p < e.1)
    (hm : Memory.wf m = true) : Memory.wf ((p, w) :: m) = true := by
  cases m with
  | nil => rfl
  | cons e m =>
    obtain ⟨q, u⟩ := e
    simp only [Memory.wf, Bool.and_eq_true, decide_eq_true_eq]
    exact ⟨h _ (List.mem_cons_self ..), hm⟩

/-- The entries after a write are the written one and entries that stood there before. -/
theorem mem_write {m : Memory} {p : Nat} {v : Word} {e : Nat × Word} (h : e ∈ m.write p v) :
    e = (p, v) ∨ e ∈ m := by
  induction m with
  | nil => simpa [Memory.write] using h
  | cons f m ih =>
    obtain ⟨k, w⟩ := f
    unfold Memory.write at h
    split at h
    · simpa using h
    · split at h
      · rcases List.mem_cons.1 h with h | h
        · exact .inl h
        · exact .inr (List.mem_cons_of_mem _ h)
      · rcases List.mem_cons.1 h with h | h
        · exact .inr (h ▸ List.mem_cons_self ..)
        · exact (ih h).imp id (List.mem_cons_of_mem _)

/-- A write keeps the canonical form. -/
theorem wf_write {m : Memory} (h : m.wf = true) (p : Nat) (v : Word) : (m.write p v).wf = true := by
  induction m with
  | nil => rfl
  | cons f m ih =>
    obtain ⟨k, w⟩ := f
    have hlt := wf_head_lt h
    unfold Memory.write
    split
    next hp =>
      refine wf_cons ?_ h
      intro e he
      rcases List.mem_cons.1 he with rfl | he
      · exact hp
      · exact hp.trans (hlt e he)
    next hp =>
      split
      next hq => subst hq; exact wf_cons hlt (wf_tail h)
      next hq =>
        refine wf_cons ?_ (ih (wf_tail h))
        intro e he
        rcases mem_write he with rfl | he
        · simp only; omega
        · exact hlt e he

end Sys2Proof.Machine
end

