-- ==== Sys2Proof/Laws/Ops.lean ====
section
/-! SUPPORT. One lemma for each memory access and for the fetch, saying all it can do; and that the
place of an access and its presence depend on tags and parameters alone. -/

namespace Sys2Proof.Machine

section same
variable {s t : State} (ht : t.tags = s.tags) (hp : t.params = s.params)
include ht hp

theorem place_of_same (i : Reg) (a : Word) : t.place i a = s.place i a := by
  simp [State.place, ht, hp]

theorem mapped_of_same (i : Reg) (a : Word) : t.mapped i a = s.mapped i a := by
  simp [State.mapped, place_of_same ht hp, hp]

theorem readVia_of_same (hm : t.mem = s.mem) (i : Reg) (a : Word) :
    t.readVia i a = s.readVia i a := by
  simp [State.readVia, place_of_same ht hp, mapped_of_same ht hp, State.cell, hm]

end same

section updates
variable (s : State) (i j : Reg) (a v : Word) (k : CC)

@[simp] theorem setReg_place : (s.setReg j v).place i a = s.place i a := place_of_same rfl rfl i a
@[simp] theorem setReg_mapped : (s.setReg j v).mapped i a = s.mapped i a :=
  mapped_of_same rfl rfl i a
@[simp] theorem setReg_readVia : (s.setReg j v).readVia i a = s.readVia i a :=
  readVia_of_same rfl rfl rfl i a
@[simp] theorem setCC_place : (s.setCC k).place i a = s.place i a := place_of_same rfl rfl i a
@[simp] theorem setCC_mapped : (s.setCC k).mapped i a = s.mapped i a := mapped_of_same rfl rfl i a
@[simp] theorem setCC_readVia : (s.setCC k).readVia i a = s.readVia i a :=
  readVia_of_same rfl rfl rfl i a

end updates

/-- A read answers the word at the place, exactly where there is memory. -/
theorem readVia_eq_some {s : State} {i : Reg} {a v : Word} :
    s.readVia i a = some v ↔ s.mapped i a = true ∧ s.cell (s.place i a) = v := by
  unfold State.readVia
  by_cases h : s.mapped i a = true <;> simp [h]

theorem readVia_eq_none {s : State} {i : Reg} {a : Word} :
    s.readVia i a = none ↔ s.mapped i a = false := by
  unfold State.readVia
  by_cases h : s.mapped i a = true <;> simp [h]

/-- A write answers the state with the word placed, exactly where there is memory. -/
theorem writeVia_eq_some {s t : State} {i : Reg} {a v : Word} :
    s.writeVia i a v = some t ↔ s.mapped i a = true ∧ t = s.placeWord (s.place i a) v := by
  unfold State.writeVia
  by_cases h : s.mapped i a = true <;> simp [h, State.placeWord, eq_comm]

theorem writeVia_eq_none {s : State} {i : Reg} {a v : Word} :
    s.writeVia i a v = none ↔ s.mapped i a = false := by
  unfold State.writeVia
  by_cases h : s.mapped i a = true <;> simp [h]

theorem writeVia_mapped {s : State} {i : Reg} {a : Word} (h : s.mapped i a = true) (v : Word) :
    s.writeVia i a v = some (s.placeWord (s.place i a) v) := writeVia_eq_some.2 ⟨h, rfl⟩

theorem readVia_mapped {s : State} {i : Reg} {a : Word} (h : s.mapped i a = true) :
    s.readVia i a = some (s.cell (s.place i a)) := readVia_eq_some.2 ⟨h, rfl⟩

/-- The word at each place after one is placed. -/
theorem cell_placeWord (s : State) (p q : Nat) (v : Word) :
    (s.placeWord p v).cell q = if p = q then v else s.cell q := by
  simp only [State.cell, placeWord_mem, read_write]
  split <;> rfl

@[simp] theorem placeWord_place (s : State) (p : Nat) (v : Word) (i : Reg) (a : Word) :
    (s.placeWord p v).place i a = s.place i a := place_of_same rfl rfl i a

@[simp] theorem placeWord_mapped (s : State) (p : Nat) (v : Word) (i : Reg) (a : Word) :
    (s.placeWord p v).mapped i a = s.mapped i a := mapped_of_same rfl rfl i a

/-- After a write, the accesses to its place read the word written and all others what they did. -/
theorem readVia_after_write {s t : State} {i : Reg} {a v : Word} (h : s.writeVia i a v = some t)
    (j : Reg) (b : Word) :
    t.readVia j b = if s.place j b = s.place i a then some v else s.readVia j b := by
  obtain ⟨hm, rfl⟩ := writeVia_eq_some.1 h
  by_cases hp : s.place j b = s.place i a
  · have hj : s.mapped j b = true := by simpa only [State.mapped, hp] using hm
    rw [if_pos hp, readVia_eq_some]
    exact ⟨by simp [hj], by simp [cell_placeWord, hp]⟩
  · rw [if_neg hp]
    simp [State.readVia, cell_placeWord, Ne.symm hp]

/-- On a machine whose every place holds memory every access is mapped. -/
theorem mapped_of_no_holes {s : State} (h : s.params.holes = []) (i : Reg) (a : Word) :
    s.mapped i a = true := by
  simp [State.mapped, h]

/-- On the untagged machine the place is the address. -/
theorem place_untagged {s : State} (h : s.tags = none) (i : Reg) (a : Word) :
    s.place i a = a.val := by
  simp [State.place, h]

/-- A fetch answers the word at the pc and the state with the pc stepped. -/
theorem fetch_eq_ok {s t : State} {w : Word} :
    s.fetch = .ok (w, t) ↔ s.readVia pcReg s.pc = some w ∧ t = s.setReg pcReg (s.pc + 1) := by
  unfold State.fetch
  cases h : s.readVia pcReg s.pc <;> simp [eq_comm]

/-- A fetch fails exactly outside MEM_MAP, with the fault that names the pc. -/
theorem fetch_eq_error {s : State} {f : Fault} :
    s.fetch = .error f ↔ s.mapped pcReg s.pc = false ∧ f = .unmappedAddress s.pc := by
  unfold State.fetch
  cases h : s.readVia pcReg s.pc with
  | some w => simp [(readVia_eq_some.1 h).1]
  | none => simp [readVia_eq_none.1 h, eq_comm]

end Sys2Proof.Machine
end

