-- ==== Sys2Proof/Laws/Operands.lean ====
section
/-! SUPPORT. What reading, modifying and writing an operand can do (R104 to R106), and the whole of
a data term, a shift and a branch. -/

namespace Sys2Proof.Machine

/-- R102: `-` uses the address before the one in the register, the others the one in it. -/
theorem suffixAddress_eq (a : Suffix) (v : Word) :
    suffixAddress a v = if a = .dec then v - 1 else v := by
  cases a <;> rfl

/-- A starred operand is read at the address that its suffix gives. -/
theorem operandIs_star (a : Suffix) (s : State) (r : Reg) (v : Word) :
    operandIs a s (.star r) v ↔ s.readVia r (suffixAddress a (s.reg r)) = some v := by
  cases a <;> rfl

/-- Reading an operand answers its value exactly where it can be read. -/
theorem readOperand_eq_ok {a : Suffix} {s : State} {o : Operand} {v : Word} :
    readOperand a s o = .ok v ↔ operandIs a s o v := by
  cases o with
  | reg r => simp [readOperand, operandIs, eq_comm]
  | const k => simp [readOperand, operandIs, eq_comm]
  | star r =>
    rw [operandIs_star]
    simp only [readOperand]
    cases s.readVia r (suffixAddress a (s.reg r)) <;> simp

/-- Reading an operand fails only on a starred register whose address is outside MEM_MAP. -/
theorem readOperand_eq_error {a : Suffix} {s : State} {o : Operand} {f : Fault} :
    readOperand a s o = .error f ↔
      ∃ r, o = .star r ∧ s.mapped r (suffixAddress a (s.reg r)) = false ∧
        f = .unmappedAddress (suffixAddress a (s.reg r)) := by
  cases o with
  | reg r => simp [readOperand]
  | const k => simp [readOperand]
  | star r =>
    simp only [readOperand]
    cases h : s.readVia r (suffixAddress a (s.reg r)) with
    | some w => simp [(readVia_eq_some.1 h).1]
    | none =>
      constructor
      · intro e
        exact ⟨r, rfl, readVia_eq_none.1 h, (Except.error.inj e).symm⟩
      · rintro ⟨q, hq, -, rfl⟩
        cases hq
        rfl

section bump
variable (a : Suffix) (s : State) (o : Operand)

@[simp] theorem bump_tags : (bump a s o).tags = s.tags := by cases o <;> rfl
@[simp] theorem bump_cc : (bump a s o).cc = s.cc := by cases o <;> rfl
@[simp] theorem bump_mem : (bump a s o).mem = s.mem := by cases o <;> rfl
@[simp] theorem bump_params : (bump a s o).params = s.params := by cases o <;> rfl

theorem bump_reg (i : Reg) :
    (bump a s o).reg i = if o = .star i then suffixAfter a (s.reg i) else s.reg i := by
  cases o with
  | reg r => simp [bump]
  | const k => simp [bump]
  | star r =>
    simp only [bump, reg_setReg, Operand.star.injEq]
    split
    next h => subst h; rfl
    next h => rfl

end bump

/-- The registers after the modification of both operands: at most one is modified. -/
theorem bump_bump_reg {a : Suffix} {src dst : Operand} (h : suffixOk a src dst = true) (s : State)
    (i : Reg) :
    (bump a (bump a s src) dst).reg i =
      if src = .star i ∨ dst = .star i then suffixAfter a (s.reg i) else s.reg i := by
  rw [bump_reg, bump_reg]
  cases a <;> cases src <;> cases dst <;>
    simp_all [suffixOk, Operand.isStar, suffixAfter]

/-- A data term is refused exactly where it is no term. -/
theorem dataRefusal_eq_none {lc : LegacyConst} {a : Suffix} {src dst : Operand} :
    dataRefusal lc a src dst = none ↔ dataOk lc a src dst = true := by
  cases a <;> cases src <;> cases dst <;>
    simp [dataRefusal, suffixRefusal, dataOk, suffixOk, Operand.isStar, Operand.constOk]

/-- The state that writing a result, then the flags, leaves. -/
def written (a : Suffix) (dst : Operand) (s t : State) (r : Word) (k : CC) : State :=
  (match dst with
    | .reg d => t.setReg d r
    | .const _ => t
    | .star d => t.placeWord (s.place d (suffixAddress a (s.reg d))) r).setCC k

section written
variable (a : Suffix) (dst : Operand) (s t : State) (r : Word) (k : CC)

@[simp] theorem written_cc : (written a dst s t r k).cc = k := rfl
@[simp] theorem written_tags : (written a dst s t r k).tags = t.tags := by cases dst <;> rfl
@[simp] theorem written_params : (written a dst s t r k).params = t.params := by cases dst <;> rfl

theorem written_reg (i : Reg) :
    (written a dst s t r k).reg i = if dst = .reg i then r else t.reg i := by
  cases dst <;> simp [written, reg_setReg]

theorem written_cell (p : Nat) :
    (written a dst s t r k).cell p =
      match dst with
      | .star d => if s.place d (suffixAddress a (s.reg d)) = p then r else t.cell p
      | .reg _ | .const _ => t.cell p := by
  cases dst <;> simp [written, cell_placeWord]

end written

/-- Updating a destination that can be read answers the written state. -/
theorem updateDst_next {a : Suffix} {dst : Operand} {s t : State} {d : Word}
    (f : Word → Word × CC) (hd : operandIs a s dst d) (ht : t.tags = s.tags)
    (hp : t.params = s.params) :
    updateDst a dst f s t = .next (written a dst s t (f d).1 (f d).2) := by
  unfold updateDst
  rw [readOperand_eq_ok.2 hd]
  cases dst with
  | reg r => rfl
  | const c => rfl
  | star r =>
    have hm : t.mapped r (suffixAddress a (s.reg r)) = true := by
      rw [mapped_of_same ht hp]; exact (readVia_eq_some.1 ((operandIs_star _ _ _ _).1 hd)).1
    simp only [writeOperand, writeVia_mapped hm, written, place_of_same ht hp]

/-- Updating a destination answers the written state, or faults because it cannot be read. -/
theorem updateDst_cases (a : Suffix) (dst : Operand) (f : Word → Word × CC) {s t : State}
    (ht : t.tags = s.tags) (hp : t.params = s.params) :
    (∃ d, operandIs a s dst d ∧ updateDst a dst f s t = .next (written a dst s t (f d).1 (f d).2)) ∨
      ∃ r, dst = .star r ∧ s.mapped r (suffixAddress a (s.reg r)) = false ∧
        updateDst a dst f s t = .fault (.unmappedAddress (suffixAddress a (s.reg r))) := by
  cases h : readOperand a s dst with
  | ok d =>
    have hd := readOperand_eq_ok.1 h
    exact .inl ⟨d, hd, updateDst_next f hd ht hp⟩
  | error e =>
    obtain ⟨r, hr, hm, he⟩ := readOperand_eq_error.1 h
    refine .inr ⟨r, hr, hm, ?_⟩
    simp [updateDst, h, he]

/-- A data term whose operands can be read answers the written state. -/
theorem runData_next {a : Suffix} {src dst : Operand} {s : State} {v d : Word}
    (f : Word → Word → Word × CC) (hok : dataOk s.params.legacyConst a src dst = true)
    (hv : operandIs a s src v) (hd : operandIs a s dst d) :
    runData f a src dst s =
      .next (written a dst s (bump a (bump a s src) dst) (f d v).1 (f d v).2) := by
  unfold runData
  rw [dataRefusal_eq_none.2 hok, readOperand_eq_ok.2 hv]
  exact updateDst_next (fun d => f d v) hd (by simp) (by simp)

/-- A data term whose starred source is outside MEM_MAP faults with the address it uses. -/
theorem runData_source_fault {a : Suffix} {r : Reg} {dst : Operand} {s : State}
    (f : Word → Word → Word × CC) (hok : dataOk s.params.legacyConst a (.star r) dst = true)
    (hm : s.mapped r (suffixAddress a (s.reg r)) = false) :
    runData f a (.star r) dst s = .fault (.unmappedAddress (suffixAddress a (s.reg r))) := by
  unfold runData
  rw [dataRefusal_eq_none.2 hok, readOperand_eq_error.2 ⟨r, rfl, hm, rfl⟩]

/-- Updating a starred destination outside MEM_MAP faults with the address it uses. -/
theorem updateDst_fault {a : Suffix} {r : Reg} {s : State} (f : Word → Word × CC) (t : State)
    (hm : s.mapped r (suffixAddress a (s.reg r)) = false) :
    updateDst a (.star r) f s t = .fault (.unmappedAddress (suffixAddress a (s.reg r))) := by
  unfold updateDst
  rw [readOperand_eq_error.2 ⟨r, rfl, hm, rfl⟩]

/-- A data term whose source can be read and whose starred destination is outside MEM_MAP faults with
the address it uses. -/
theorem runData_dst_fault {a : Suffix} {src : Operand} {r : Reg} {s : State} {v : Word}
    (f : Word → Word → Word × CC) (hok : dataOk s.params.legacyConst a src (.star r) = true)
    (hv : operandIs a s src v) (hm : s.mapped r (suffixAddress a (s.reg r)) = false) :
    runData f a src (.star r) s = .fault (.unmappedAddress (suffixAddress a (s.reg r))) := by
  unfold runData
  rw [dataRefusal_eq_none.2 hok, readOperand_eq_ok.2 hv]
  exact updateDst_fault (fun d => f d v) _ hm

/-- Everything a data term can do: it is refused, or an operand is outside MEM_MAP, or it answers
the written state. -/
theorem runData_cases (f : Word → Word → Word × CC) (a : Suffix) (src dst : Operand) (s : State) :
    (dataOk s.params.legacyConst a src dst = false ∧ ∃ why, runData f a src dst s = .refused why) ∨
    (dataOk s.params.legacyConst a src dst = true ∧ ∃ r, (src = .star r ∨ dst = .star r) ∧
      s.mapped r (suffixAddress a (s.reg r)) = false ∧
      runData f a src dst s = .fault (.unmappedAddress (suffixAddress a (s.reg r)))) ∨
    (dataOk s.params.legacyConst a src dst = true ∧ ∃ v d, operandIs a s src v ∧
      operandIs a s dst d ∧ runData f a src dst s =
        .next (written a dst s (bump a (bump a s src) dst) (f d v).1 (f d v).2)) := by
  cases h : dataRefusal s.params.legacyConst a src dst with
  | some why =>
    refine .inl ⟨?_, why, by simp [runData, h]⟩
    by_contra hne
    rw [Bool.not_eq_false, ← dataRefusal_eq_none] at hne
    simp [h] at hne
  | none =>
    have hok := dataRefusal_eq_none.1 h
    refine .inr ?_
    cases hv : readOperand a s src with
    | error e =>
      obtain ⟨r, hr, hm, he⟩ := readOperand_eq_error.1 hv
      exact .inl ⟨hok, r, .inl hr, hm, by simp [runData, h, hv, he]⟩
    | ok v =>
      have hv' := readOperand_eq_ok.1 hv
      rcases updateDst_cases a dst (fun d => f d v) (s := s) (t := bump a (bump a s src) dst)
        (by simp) (by simp) with ⟨d, hd, he⟩ | ⟨r, hr, hm, he⟩
      · exact .inr ⟨hok, v, d, hv', hd, by simp only [runData, h, hv]; exact he⟩
      · exact .inl ⟨hok, r, .inr hr, hm, by simp only [runData, h, hv]; exact he⟩

/-- A shift whose destination can be read answers the written state. -/
theorem runShift_next {dst : Operand} {s : State} {d : Word} (f : Word → Word × CC)
    (hok : dst.constOk s.params.legacyConst = true) (hd : operandIs .plain s dst d) :
    runShift f .plain dst s = .next (written .plain dst s s (f d).1 (f d).2) := by
  unfold runShift
  simp only [if_true, hok]
  exact updateDst_next f hd rfl rfl

/-- Everything a shift can do. -/
theorem runShift_cases (f : Word → Word × CC) (a : Suffix) (dst : Operand) (s : State) :
    (shiftOk s.params.legacyConst a dst = false ∧ ∃ why, runShift f a dst s = .refused why) ∨
    (shiftOk s.params.legacyConst a dst = true ∧ ∃ r, dst = .star r ∧
      s.mapped r (s.reg r) = false ∧
      runShift f a dst s = .fault (.unmappedAddress (s.reg r))) ∨
    (shiftOk s.params.legacyConst a dst = true ∧ ∃ d, operandIs .plain s dst d ∧
      runShift f a dst s = .next (written .plain dst s s (f d).1 (f d).2)) := by
  by_cases ha : a = .plain
  · subst ha
    by_cases hc : dst.constOk s.params.legacyConst = true
    · refine .inr ?_
      have hok : shiftOk s.params.legacyConst .plain dst = true := by simp [shiftOk, hc]
      rcases updateDst_cases .plain dst f (s := s) (t := s) rfl rfl with
        ⟨d, hd, he⟩ | ⟨r, hr, hm, he⟩
      · exact .inr ⟨hok, d, hd, by simp only [runShift, if_true, hc]; exact he⟩
      · exact .inl ⟨hok, r, hr, hm, by simp only [runShift, if_true, hc]; exact he⟩
    · exact .inl ⟨by simp [shiftOk, hc], _, by simp only [runShift, if_true, hc]; rfl⟩
  · exact .inl ⟨by simp [shiftOk, ha], _, by simp only [runShift, ha, if_false]; rfl⟩

end Sys2Proof.Machine
end

