-- ==== Sys2Proof/Laws/Exec.lean ====
section
/-! SUPPORT. What each family of meanings can do, and, from that, once for all instructions, what a
next state can differ in. -/

namespace Sys2Proof.Machine

/-! ## The auto-modification -/

section modify
variable (m : Mode) (x : Reg) (s : State)

@[simp] theorem modeModify_tags : (modeModify m x s).tags = s.tags := by cases m <;> rfl
@[simp] theorem modeModify_cc : (modeModify m x s).cc = s.cc := by cases m <;> rfl
@[simp] theorem modeModify_mem : (modeModify m x s).mem = s.mem := by cases m <;> rfl
@[simp] theorem modeModify_params : (modeModify m x s).params = s.params := by cases m <;> rfl
@[simp] theorem modeModify_cell (p : Nat) : (modeModify m x s).cell p = s.cell p := by
  cases m <;> rfl
@[simp] theorem modeModify_place (i : Reg) (a : Word) :
    (modeModify m x s).place i a = s.place i a := place_of_same (by simp) (by simp) i a
@[simp] theorem modeModify_mapped (i : Reg) (a : Word) :
    (modeModify m x s).mapped i a = s.mapped i a := mapped_of_same (by simp) (by simp) i a

theorem modeModify_reg_ne {i : Reg} (h : i ≠ x) : (modeModify m x s).reg i = s.reg i := by
  cases m <;> simp [modeModify, reg_setReg, h.symm]

end modify

/-- Only register mode has no memory address. -/
theorem modeAddress_eq_none {m : Mode} {v : Word} : modeAddress m v = none ↔ m = .register := by
  cases m <;> simp [modeAddress]

/-! ## The transfers -/

/-- Everything `store` can do. -/
theorem execStore_cases (r : Reg) (m : Mode) (x : Reg) (s : State) :
    (m = .register ∧ execStore r m x s = .next (s.setReg x (s.reg r))) ∨
    (∃ a, modeAddress m (s.reg x) = some a ∧ s.mapped x a = true ∧ execStore r m x s =
      .next ((modeModify m x s).placeWord (s.place x a) (s.reg r))) ∨
    (∃ a, modeAddress m (s.reg x) = some a ∧ s.mapped x a = false ∧
      execStore r m x s = .fault (.unmappedAddress a)) := by
  unfold execStore
  cases h : modeAddress m (s.reg x) with
  | none => exact .inl ⟨modeAddress_eq_none.1 h, rfl⟩
  | some a =>
    cases hm : s.mapped x a with
    | true =>
      have hw := writeVia_mapped (s := modeModify m x s) (i := x) (a := a) (by simpa using hm)
        (s.reg r)
      exact .inr (.inl ⟨a, rfl, hm, by simp [hw]⟩)
    | false =>
      have hw := writeVia_eq_none (s := modeModify m x s) (i := x) (a := a) (v := s.reg r) |>.2
        (by simpa using hm)
      exact .inr (.inr ⟨a, rfl, hm, by simp [hw]⟩)

/-- Everything `load` can do. -/
theorem execLoad_cases (r : Reg) (m : Mode) (x : Reg) (s : State) :
    (m = .register ∧ execLoad r m x s =
      .next (((s.copyTag r x).setReg r (s.reg x)).setCC (loadCC (s.reg x)))) ∨
    (∃ a, modeAddress m (s.reg x) = some a ∧ s.mapped x a = true ∧ execLoad r m x s =
      .next (((modeModify m x s).setReg r (s.cell (s.place x a))).setCC
        (loadCC (s.cell (s.place x a))))) ∨
    (∃ a, modeAddress m (s.reg x) = some a ∧ s.mapped x a = false ∧
      execLoad r m x s = .fault (.unmappedAddress a)) := by
  unfold execLoad
  cases h : modeAddress m (s.reg x) with
  | none => exact .inl ⟨modeAddress_eq_none.1 h, rfl⟩
  | some a =>
    cases hm : s.mapped x a with
    | true =>
      have hr := readVia_mapped (s := modeModify m x s) (i := x) (a := a) (by simpa using hm)
      exact .inr (.inl ⟨a, rfl, hm, by simp [hr]⟩)
    | false =>
      have hr := readVia_eq_none (s := modeModify m x s) (i := x) (a := a) |>.2 (by simpa using hm)
      exact .inr (.inr ⟨a, rfl, hm, by simp [hr]⟩)

/-! ## The terms below the frontier -/

/-- A term with a register source is `runData`; any other source is refused. -/
theorem runCarry_eq (f : Word → Word → Word × CC) (a : Suffix) (src dst : Operand) (s : State) :
    runCarry f a src dst s =
      if src.isReg then runData f a src dst s else .refused .sourceNotRegister := rfl

theorem overflow_ne_two (E : Int) : overflow E ≠ 2 := by
  unfold overflow; split <;> decide

theorem inexact_ne_two (n : Nat) (d : Word) : inexact n d ≠ 2 := by
  unfold inexact; split <;> decide

theorem report_v_ne_two (rc : Word × Trit) (E : Int) : (report rc E).2.v ≠ 2 := overflow_ne_two E

theorem slOp_v_ne_two (n : Nat) (d : Word) : (slOp n d).2.v ≠ 2 := by
  simp only [slOp]; split <;> decide

/-! ## What a next state can differ in -/

/-- What an instruction `i` that takes `s` to `t` may have changed besides registers. -/
structure Change (i : Instr) (s t : State) : Prop where
  params : t.params = s.params
  tags : t.tags = s.tags ∨ ∃ r x, i = .load r .register x ∧ t.tags = (s.copyTag r x).tags
  mem : t.mem = s.mem ∨
    mayWriteMemory i = true ∧ ∃ j a v, s.mapped j a = true ∧ t.mem = s.mem.write (s.place j a) v
  flags : leavesFlags i = true ∧ t.cc = s.cc ∨ leavesFlags i = false ∧ t.cc.v ≠ 2

theorem written_mem (a : Suffix) (dst : Operand) (s t : State) (r : Word) (k : CC) :
    (written a dst s t r k).mem =
      match dst with
      | .star d => t.mem.write (s.place d (suffixAddress a (s.reg d))) r
      | .reg _ | .const _ => t.mem := by
  cases dst <;> rfl

/-- The change of a term whose destination is `dst`. -/
theorem written_change {i : Instr} {a : Suffix} {dst : Operand} {s t : State} {d r : Word} {k : CC}
    (hd : operandIs a s dst d) (htags : t.tags = s.tags) (hp : t.params = s.params)
    (hm : t.mem = s.mem) (hv : k.v ≠ 2) (hl : leavesFlags i = false)
    (hw : dst.isStar = true → mayWriteMemory i = true) :
    Change i s (written a dst s t r k) where
  params := by simp [hp]
  tags := .inl (by simp [htags])
  mem := by
    rw [written_mem]
    cases dst with
    | reg q => exact .inl hm
    | const c => exact .inl hm
    | star q => exact .inr ⟨hw rfl, q, _, r, (readVia_eq_some.1 ((operandIs_star _ _ _ _).1 hd)).1,
      by simp only [hm]⟩
  flags := .inr ⟨hl, by simpa using hv⟩

theorem runData_change {i : Instr} {f : Word → Word → Word × CC} {a : Suffix} {src dst : Operand}
    {s t : State} (h : runData f a src dst s = .next t) (hv : ∀ d v, (f d v).2.v ≠ 2)
    (hl : leavesFlags i = false) (hw : dst.isStar = true → mayWriteMemory i = true) :
    Change i s t := by
  rcases runData_cases f a src dst s with ⟨-, why, e⟩ | ⟨-, r, -, -, e⟩ | ⟨-, v, d, -, hd, e⟩ <;>
    rw [e] at h
  · cases h
  · cases h
  · cases h
    exact written_change hd (by simp) (by simp) (by simp) (hv d v) hl hw

theorem runCarry_change {i : Instr} {f : Word → Word → Word × CC} {a : Suffix} {src dst : Operand}
    {s t : State} (h : runCarry f a src dst s = .next t) (hv : ∀ d v, (f d v).2.v ≠ 2)
    (hl : leavesFlags i = false) (hw : dst.isStar = true → mayWriteMemory i = true) :
    Change i s t := by
  rw [runCarry_eq] at h
  split at h
  · exact runData_change h hv hl hw
  · cases h

theorem runShift_change {i : Instr} {f : Word → Word × CC} {a : Suffix} {dst : Operand}
    {s t : State} (h : runShift f a dst s = .next t) (hv : ∀ d, (f d).2.v ≠ 2)
    (hl : leavesFlags i = false) (hw : dst.isStar = true → mayWriteMemory i = true) :
    Change i s t := by
  rcases runShift_cases f a dst s with ⟨-, why, e⟩ | ⟨-, r, -, -, e⟩ | ⟨-, d, hd, e⟩ <;>
    rw [e] at h
  · cases h
  · cases h
  · cases h
    exact written_change hd rfl rfl rfl (hv d) hl hw

theorem branchIf_change {i : Instr} {taken : Bool} {target : Word} {s t : State}
    (h : branchIf taken target s = .next t) (hl : leavesFlags i = true) : Change i s t := by
  cases h
  cases taken
  · exact ⟨rfl, .inl rfl, .inl rfl, .inl ⟨hl, rfl⟩⟩
  · exact ⟨rfl, .inl rfl, .inl rfl, .inl ⟨hl, rfl⟩⟩

theorem execStore_change {r : Reg} {m : Mode} {x : Reg} {s t : State}
    (h : execStore r m x s = .next t) : Change (.store r m x) s t := by
  rcases execStore_cases r m x s with ⟨-, e⟩ | ⟨a, ha, hm, e⟩ | ⟨a, -, -, e⟩ <;> rw [e] at h
  · cases h; exact ⟨rfl, .inl rfl, .inl rfl, .inl ⟨rfl, rfl⟩⟩
  · cases h
    have hreg : m ≠ .register := by rintro rfl; cases ha
    exact ⟨by simp, .inl (by simp),
      .inr ⟨by simpa [mayWriteMemory] using hreg, x, a, s.reg r, hm, by simp⟩,
      .inl ⟨rfl, by simp⟩⟩
  · cases h

theorem loadCC_v_ne_two (v : Word) : (loadCC v).v ≠ 2 := by
  change (0 : Trit) ≠ 2
  decide

theorem execLoad_change {r : Reg} {m : Mode} {x : Reg} {s t : State}
    (h : execLoad r m x s = .next t) : Change (.load r m x) s t := by
  rcases execLoad_cases r m x s with ⟨rfl, e⟩ | ⟨a, -, -, e⟩ | ⟨a, -, -, e⟩ <;> rw [e] at h
  · cases h
    exact ⟨rfl, .inr ⟨r, x, rfl, rfl⟩, .inl rfl, .inr ⟨rfl, loadCC_v_ne_two _⟩⟩
  · cases h
    exact ⟨by simp, .inl (by simp), .inl (by simp), .inr ⟨rfl, loadCC_v_ne_two _⟩⟩
  · cases h

/-- Everything but registers that an instruction can change, for all instructions. -/
theorem exec_change {i : Instr} {s t : State} (h : exec i s = .next t) : Change i s t := by
  cases i with
  | store r m x => exact execStore_change h
  | load r m x => exact execLoad_change h
  | loadi r k =>
    cases h
    exact ⟨rfl, .inl rfl, .inl rfl, .inr ⟨rfl, loadCC_v_ne_two _⟩⟩
  | add a src dst => exact runData_change h (fun _ _ => report_v_ne_two _ _) rfl id
  | sub a src dst => exact runData_change h (fun _ _ => report_v_ne_two _ _) rfl id
  | addc a src dst => exact runCarry_change h (fun _ _ => report_v_ne_two _ _) rfl id
  | subb a src dst => exact runCarry_change h (fun _ _ => report_v_ne_two _ _) rfl id
  | sl a n dst => exact runShift_change h (slOp_v_ne_two _) rfl id
  | sru a n dst => exact runShift_change h (inexact_ne_two _) rfl id
  | srs a n dst => exact runShift_change h (inexact_ne_two _) rfl id
  | beq t => exact branchIf_change h rfl
  | bne t => exact branchIf_change h rfl
  | blts t => exact branchIf_change h rfl
  | bles t => exact branchIf_change h rfl
  | bges t => exact branchIf_change h rfl
  | bgts t => exact branchIf_change h rfl
  | bltu t => exact branchIf_change h rfl
  | bleu t => exact branchIf_change h rfl
  | bgeu t => exact branchIf_change h rfl
  | bgtu t => exact branchIf_change h rfl
  | bpos t => exact branchIf_change h rfl
  | bnpos t => exact branchIf_change h rfl
  | bneg t => exact branchIf_change h rfl
  | bnneg t => exact branchIf_change h rfl
  | bvr t => exact branchIf_change h rfl
  | bvs t => exact branchIf_change h rfl

end Sys2Proof.Machine
end

