-- ==== Sys2Proof/Laws/PerInstr.lean ====
section
/-! SUPPORT. For every instruction: it has an encoding exactly when it belongs to the current format
(R54, R65), and the encoding is one word, or two in indexed mode (R55). -/

namespace Sys2Proof.Laws.EncodedLength

open Sys2Proof

/-- How many words of the current format the instruction takes. -/
def words : Instr → Nat
  | .store _ (.indexed _) _ | .load _ (.indexed _) _ => 2
  | _ => 1

/-- The statement of the family. -/
def Statement (i : Instr) : Prop :=
  (encode i).map List.length = if i.isCurrent then some (words i) else none

theorem store (r : Reg) (m : Mode) (x : Reg) : Statement (.store r m x) := by
  cases m <;> rfl

theorem load (r : Reg) (m : Mode) (x : Reg) : Statement (.load r m x) := by
  cases m <;> rfl

theorem loadi (r : Reg) (k : Fin 81) : Statement (.loadi r k) := by
  rfl

theorem add (a : Suffix) (src : Operand) (dst : Operand) : Statement (.add a src dst) := by
  rfl

theorem sub (a : Suffix) (src : Operand) (dst : Operand) : Statement (.sub a src dst) := by
  rfl

theorem addc (a : Suffix) (src : Operand) (dst : Operand) : Statement (.addc a src dst) := by
  rfl

theorem subb (a : Suffix) (src : Operand) (dst : Operand) : Statement (.subb a src dst) := by
  rfl

theorem sl (a : Suffix) (n : CountField) (dst : Operand) : Statement (.sl a n dst) := by
  rfl

theorem sru (a : Suffix) (n : CountField) (dst : Operand) : Statement (.sru a n dst) := by
  rfl

theorem srs (a : Suffix) (n : CountField) (dst : Operand) : Statement (.srs a n dst) := by
  rfl

theorem beq (t : Word) : Statement (.beq t) := by
  rfl

theorem bne (t : Word) : Statement (.bne t) := by
  rfl

theorem blts (t : Word) : Statement (.blts t) := by
  rfl

theorem bles (t : Word) : Statement (.bles t) := by
  rfl

theorem bges (t : Word) : Statement (.bges t) := by
  rfl

theorem bgts (t : Word) : Statement (.bgts t) := by
  rfl

theorem bltu (t : Word) : Statement (.bltu t) := by
  rfl

theorem bleu (t : Word) : Statement (.bleu t) := by
  rfl

theorem bgeu (t : Word) : Statement (.bgeu t) := by
  rfl

theorem bgtu (t : Word) : Statement (.bgtu t) := by
  rfl

theorem bpos (t : Word) : Statement (.bpos t) := by
  rfl

theorem bnpos (t : Word) : Statement (.bnpos t) := by
  rfl

theorem bneg (t : Word) : Statement (.bneg t) := by
  rfl

theorem bnneg (t : Word) : Statement (.bnneg t) := by
  rfl

theorem bvr (t : Word) : Statement (.bvr t) := by
  rfl

theorem bvs (t : Word) : Statement (.bvs t) := by
  rfl

end Sys2Proof.Laws.EncodedLength
end

