-- ==== Sys2Proof/Laws/Step.lean ====
section
/-! SUPPORT. Everything the instruction fetch and the step can do. -/

namespace Sys2Proof.Machine

/-- A word is decoded, or the fault names it and its address. -/
theorem decodeOrFault_cases (s : State) (A w d : Word) :
    (∃ i, decode s.params.opmap A w d = .ok i ∧ decodeOrFault s A w d = .ok i) ∨
    (∃ e, decode s.params.opmap A w d = .error e ∧
      decodeOrFault s A w d = .error (rejectFault A w e)) := by
  unfold decodeOrFault
  cases decode s.params.opmap A w d with
  | ok i => exact .inl ⟨i, rfl, rfl⟩
  | error e => exact .inr ⟨e, rfl, rfl⟩

/-- A fetched instruction takes one word or two, and leaves nothing changed but the pc. -/
theorem fetchInstr_ok {s t : State} {i : Instr} (h : s.fetchInstr = .ok (i, t)) :
    ∃ w, s.readVia pcReg s.pc = some w ∧
      ((instrLength s.params.opmap s.pc w ≠ 2 ∧ decode s.params.opmap s.pc w 0 = .ok i ∧
          t = s.setReg pcReg (s.pc + 1)) ∨
       (instrLength s.params.opmap s.pc w = 2 ∧ ∃ d, s.readVia pcReg (s.pc + 1) = some d ∧
          decode s.params.opmap s.pc w d = .ok i ∧ t = s.setReg pcReg (s.pc + 1 + 1))) := by
  unfold State.fetchInstr at h
  cases hf : s.fetch with
  | error f => simp [hf] at h
  | ok wt =>
    obtain ⟨w, s1⟩ := wt
    obtain ⟨hr, rfl⟩ := fetch_eq_ok.1 hf
    refine ⟨w, hr, ?_⟩
    simp only [hf] at h
    split at h
    next hl =>
      refine .inr ⟨hl, ?_⟩
      cases hg : (s.setReg pcReg (s.pc + 1)).fetch with
      | error f => simp [hg] at h
      | ok dt =>
        obtain ⟨d, s2⟩ := dt
        obtain ⟨hd, rfl⟩ := fetch_eq_ok.1 hg
        simp only [hg] at h
        rcases decodeOrFault_cases s s.pc w d with ⟨j, hj, e⟩ | ⟨e', -, e⟩ <;> rw [e] at h
        · obtain ⟨rfl, rfl⟩ := Prod.mk.inj (Except.ok.inj h)
          exact ⟨d, by simpa using hd, hj, by simp [setReg_setReg]⟩
        · cases h
    next hl =>
      rcases decodeOrFault_cases s s.pc w 0 with ⟨j, hj, e⟩ | ⟨e', -, e⟩ <;> rw [e] at h
      · obtain ⟨rfl, rfl⟩ := Prod.mk.inj (Except.ok.inj h)
        exact .inl ⟨hl, hj, rfl⟩
      · cases h

/-- Fetching a one-word instruction. -/
theorem fetchInstr_one {s : State} {w : Word} {i : Instr} (hr : s.readVia pcReg s.pc = some w)
    (hl : instrLength s.params.opmap s.pc w ≠ 2) (hd : decode s.params.opmap s.pc w 0 = .ok i) :
    s.fetchInstr = .ok (i, s.setReg pcReg (s.pc + 1)) := by
  unfold State.fetchInstr
  rw [fetch_eq_ok.2 ⟨hr, rfl⟩]
  simp [hl, decodeOrFault, hd, Except.map]

/-- Fetching a two-word instruction. -/
theorem fetchInstr_two {s : State} {w d : Word} {i : Instr} (hr : s.readVia pcReg s.pc = some w)
    (hl : instrLength s.params.opmap s.pc w = 2) (hr2 : s.readVia pcReg (s.pc + 1) = some d)
    (hd : decode s.params.opmap s.pc w d = .ok i) :
    s.fetchInstr = .ok (i, s.setReg pcReg (s.pc + 1 + 1)) := by
  unfold State.fetchInstr
  have h2 : (s.setReg pcReg (s.pc + 1)).fetch =
      .ok (d, (s.setReg pcReg (s.pc + 1)).setReg pcReg (s.pc + 1 + 1)) :=
    fetch_eq_ok.2 ⟨by simpa using hr2, by simp⟩
  rw [fetch_eq_ok.2 ⟨hr, rfl⟩]
  simp [hl, h2, decodeOrFault, hd, Except.map, setReg_setReg]

/-- A rejected first word is a fault that names it and its address. -/
theorem fetchInstr_reject {s : State} {w : Word} {e : Reject} (hr : s.readVia pcReg s.pc = some w)
    (hl : instrLength s.params.opmap s.pc w ≠ 2) (hd : decode s.params.opmap s.pc w 0 = .error e) :
    s.fetchInstr = .error (rejectFault s.pc w e) := by
  unfold State.fetchInstr
  rw [fetch_eq_ok.2 ⟨hr, rfl⟩]
  simp [hl, decodeOrFault, hd, Except.map]

/-- A step that answers a next state ran one instruction from the state with the pc past it. -/
theorem step_next {s t : State} (h : step s = .next t) :
    ∃ i pc', exec i (s.setReg pcReg pc') = .next t := by
  unfold step at h
  cases hf : s.fetchInstr with
  | error f => simp [hf] at h
  | ok iu =>
    obtain ⟨i, u⟩ := iu
    simp only [hf] at h
    obtain ⟨w, -, ⟨-, -, rfl⟩ | ⟨-, d, -, -, rfl⟩⟩ := fetchInstr_ok hf
    · exact ⟨i, _, h⟩
    · exact ⟨i, _, h⟩

theorem step_of_fetchInstr {s t : State} {i : Instr} (h : s.fetchInstr = .ok (i, t)) :
    step s = exec i t := by
  simp [step, h]

end Sys2Proof.Machine
end

