-- ==== Sys2Proof/Laws/Run.lean ====
section
/-! SUPPORT. Runs of the host's machine and runs to HALT_PC, one step at a time. -/

namespace Sys2Proof.Machine

theorem core_run_succ (M : Host.Core) (k : Nat) (s : M.State) :
    M.run (k + 1) s = match M.step s with
      | .next t => M.run k t
      | .fault f => .fault f
      | .refused r => .refused r := rfl

theorem run_next {s t : State} (h : step s = .next t) (k : Nat) :
    Host.Core.run Sys2Proof.core (k + 1) s = Host.Core.run Sys2Proof.core k t := by
  have hc : Sys2Proof.core.step s = .next t := h
  exact (core_run_succ Sys2Proof.core k s).trans (by rw [hc])

theorem run_fault {s : State} {f : Fault} (h : step s = .fault f) (k : Nat) :
    Host.Core.run Sys2Proof.core (k + 1) s = .fault f := by
  have hc : Sys2Proof.core.step s = .fault f := h
  exact (core_run_succ Sys2Proof.core k s).trans (by rw [hc])

theorem run_refused {s : State} {r : Refusal} (h : step s = .refused r) (k : Nat) :
    Host.Core.run Sys2Proof.core (k + 1) s = .refused r := by
  have hc : Sys2Proof.core.step s = .refused r := h
  exact (core_run_succ Sys2Proof.core k s).trans (by rw [hc])

/-- A run is complete at once where the pc is HALT_PC, whatever the fuel. -/
theorem runToHalt_of_halt {s : State} (h : s.params.haltPc = some s.pc) (n : Nat) :
    runToHalt n s = .complete s := by
  cases n <;> simp [runToHalt, State.atHalt, h]

theorem runToHalt_zero {s : State} (h : s.params.haltPc ≠ some s.pc) :
    runToHalt 0 s = .outOfFuel s := by
  simp [runToHalt, State.atHalt, h]

/-- Elsewhere a run takes one step and goes on, or stops as the step does. -/
theorem runToHalt_succ {s : State} (h : s.params.haltPc ≠ some s.pc) (n : Nat) :
    runToHalt (n + 1) s = match step s with
      | .next t => runToHalt n t
      | .fault f => .fault f
      | .refused r => .refused r := by
  cases hs : step s <;> simp [runToHalt, State.atHalt, h, hs]

end Sys2Proof.Machine
end

