-- ==== Sys2Proof/Laws/Terms.lean ====
section
/-! SUPPORT. What a below-frontier term leaves, in the words the claims use, given its result and
flags. -/

namespace Sys2Proof.Machine

/-- The written state, after the modification of the operands, is what a term leaves. -/
theorem termLeaves_written {o : Host.Outcome State Fault Refusal} {a : Suffix} {src dst : Operand}
    {s : State} {r : Word} {k : CC} (hok : suffixOk a src dst = true)
    (e : o = .next (written a dst s (bump a (bump a s src) dst) r k)) :
    termLeaves o a src dst s r k := by
  refine ⟨_, e, by simp, ⟨by simp, by simp⟩, ?_, ?_, ?_, ?_, ?_⟩
  · intro i hi; simp [written_reg, hi]
  · intro i hi h
    rw [written_reg, if_neg hi, bump_bump_reg hok, if_pos h]
    cases a <;> simp [suffixAfter]
  · intro i hi h1 h2; rw [written_reg, if_neg hi, bump_bump_reg hok, if_neg (by simp [h1, h2])]
  · rintro q e rfl he
    rw [← suffixAddress_eq] at he
    subst he
    refine ⟨by simp [written_cell], ?_⟩
    intro p hp
    simp only [written_cell, hp.symm, if_false]
    simp [State.cell]
  · intro h p
    cases dst <;> simp [Operand.isStar] at h <;> simp [written_cell] <;> simp [State.cell]

theorem termLeaves_runData {f : Word → Word → Word × CC} {a : Suffix} {src dst : Operand}
    {s : State} {v d : Word} (hok : dataOk s.params.legacyConst a src dst = true)
    (hv : operandIs a s src v) (hd : operandIs a s dst d) :
    termLeaves (runData f a src dst s) a src dst s (f d v).1 (f d v).2 := by
  refine termLeaves_written ?_ (runData_next f hok hv hd)
  simp only [dataOk, Bool.and_eq_true] at hok
  exact hok.1

theorem termLeaves_runCarry {f : Word → Word → Word × CC} {a : Suffix} {src dst : Operand}
    {s : State} {v d : Word} (hok : carryOk s.params.legacyConst a src dst = true)
    (hv : operandIs a s src v) (hd : operandIs a s dst d) :
    termLeaves (runCarry f a src dst s) a src dst s (f d v).1 (f d v).2 := by
  simp only [carryOk, Bool.and_eq_true] at hok
  unfold runCarry
  rw [if_pos hok.1]
  exact termLeaves_runData hok.2 hv hd

theorem termLeaves_runShift {f : Word → Word × CC} {dst : Operand} {s : State} {d : Word}
    (hok : dst.constOk s.params.legacyConst = true) (hd : operandIs .plain s dst d) :
    termLeaves (runShift f .plain dst s) .plain dst dst s (f d).1 (f d).2 := by
  refine ⟨_, runShift_next f hok hd, by simp, ⟨by simp, by simp⟩, ?_, ?_, ?_, ?_, ?_⟩
  · intro i hi; simp [written_reg, hi]
  · intro i hi h; simp [written_reg, hi]
  · intro i hi h1 h2; rw [written_reg, if_neg hi]
  · rintro q e rfl he
    rw [← suffixAddress_eq] at he
    subst he
    refine ⟨by simp [written_cell], ?_⟩
    intro p hp
    simp [written_cell, hp.symm]
  · intro h p
    cases dst <;> simp [Operand.isStar] at h <;> simp [written_cell]

end Sys2Proof.Machine
end

