-- ==== Sys2Proof/Laws/Word.lean ====
section
/-! SUPPORT. The value of each word operation as a natural or an integer, and the signed reading. -/

namespace Sys2Proof.Machine

theorem ofNat_val (n : Nat) : (Word.ofNat n).val = n % 19683 := rfl

theorem ofInt_val (z : Int) : ((Word.ofInt z).val : Int) = z % 19683 := by
  simp only [Word.ofInt, Fin.ofNat]; omega

theorem sub_val (d v : Word) : (d - v).val = (19683 - v.val + d.val) % 19683 := by
  rw [Fin.sub_def]

theorem cmp3_val (w : Word) : (cmp3 w).val = 19682 - w.val := by
  rw [cmp3, ofNat_val]; omega

/-- The signed range (R3). -/
theorem sv_range (w : Word) : -9841 ≤ sv w ∧ sv w ≤ 9841 := by
  have := w.isLt
  unfold sv
  split_ifs <;> omega

/-- The signed value of a word made from an integer in range is that integer. -/
theorem sv_ofInt {z : Int} (h : -9841 ≤ z ∧ z ≤ 9841) : sv (Word.ofInt z) = z := by
  have := ofInt_val z
  unfold sv
  split_ifs <;> omega

/-- Sign extension by value (R8). -/
theorem sv_sext4 (k : Fin 81) :
    sv (sext4 k) = if k.val ≤ 40 then (k.val : Int) else (k.val : Int) - 81 := by
  have := k.isLt
  unfold sext4 sv
  split <;> simp only [ofNat_val] <;> split_ifs <;> omega

/-- A shift's count is 1 to 9 (R120). -/
theorem shiftCount_range (n : CountField) : 1 ≤ shiftCount n ∧ shiftCount n ≤ 9 := by
  have := n.isLt
  unfold shiftCount
  split <;> omega

/-- The right shifts' `v` as divisibility. -/
theorem inexact_eq (n : Nat) (d : Word) : inexact n d = if 3 ^ n ∣ d.val then 0 else 1 := by
  unfold inexact
  by_cases h : 3 ^ n ∣ d.val
  · rw [if_pos h, if_neg (by simp [Nat.mod_eq_zero_of_dvd h])]
  · rw [if_neg h, if_pos (by rwa [Nat.dvd_iff_mod_eq_zero] at h)]

/-- The adder's output on a complemented operand and a carry (R112, R114), as a difference. -/
theorem adder_cmp3 (d v : Word) (k : Trit) :
    adder d (cmp3 v) k.val = (Word.ofInt ((d.val : Int) - v.val - 1 + k.val),
      if d.val + k.val < v.val + 1 then 0
      else if d.val + k.val < v.val + 1 + 19683 then 1 else 2) := by
  have h1 := d.isLt
  have h2 := v.isLt
  have h3 := k.isLt
  unfold adder
  rw [cmp3_val]
  congr 1
  · apply Fin.ext
    have := ofInt_val ((d.val : Int) - v.val - 1 + k.val)
    rw [ofNat_val]
    omega
  · apply Fin.ext
    simp only [Fin.ofNat]
    split_ifs <;> simp <;> omega

end Sys2Proof.Machine
end

