-- ==== Sys2Proof/Tests/Slice0.lean ====
section
/-! SUPPORT. The model's own tests: expected results from 95_test_vectors.md and the source's examples
it transcribes; the ill-formed terms; and, for every statement with hypotheses, a state that meets
them. -/

namespace Sys2Proof.Tests

open Sys2Proof Sys2Proof.Machine

/-! ## Building small states -/

/-- The word written by nine trits. -/
def w3 (n : Nat) : Word := (tableWord n).getD 0

/-- Flags `(0,1,2)`, the pc at 100, the given registers, and words of memory in trits. -/
def start (regs : List (Reg × Word)) (image : List (Nat × Nat)) : State :=
  (((regs.foldl (fun t p => t.setReg p.1 p.2) State.reset).setCC { s := 0, v := 1, c := 2 }).launch 100
    (image.map fun p => (p.1, w3 p.2)))

/-- The same, with term `i` at 100. Its word is `000000000`. -/
def startTerm (i : Instr) (n : RowWords) (regs : List (Reg × Word)) (image : List (Nat × Nat)) : State :=
  { start regs ((100, 0) :: image) with
    params := { Params.base with opmap := [OpmapRow.mk 0 (some 100) n i] } }

/-- The same state with a hole in memory at each of `hs`. -/
def withHoles (s : State) (hs : List Nat) : State := { s with params := { s.params with holes := hs } }

/-- The same state on a tagged machine: register `i` has tag `i`. -/
def tagged (s : State) : State := { s with tags := some (Vector.ofFn fun i : Fin 9 => i.val) }

def isNext (o : Host.Outcome State Fault Refusal) : Bool :=
  match o with
  | .next _ => true
  | .fault _ | .refused _ => false

def nextOr (o : Host.Outcome State Fault Refusal) (s : State) : State :=
  match o with
  | .next t => t
  | .fault _ | .refused _ => s

def faultOf (o : Host.Outcome State Fault Refusal) : Option Fault :=
  match o with
  | .fault f => some f
  | .next _ | .refused _ => none

def refusalOf (o : Host.Outcome State Fault Refusal) : Option Refusal :=
  match o with
  | .refused r => some r
  | .next _ | .fault _ => none

theorem next_of_isNext {o : Host.Outcome State Fault Refusal} (s : State) (h : isNext o = true) :
    o = .next (nextOr o s) := by
  cases o <;> simp_all [isNext, nextOr]

theorem fault_of_faultOf {o : Host.Outcome State Fault Refusal} {f : Fault}
    (h : faultOf o = some f) : o = .fault f := by
  cases o <;> simp_all [faultOf]

/-- The outcome is a next state with these registers, words of memory and flags. -/
def leaves (o : Host.Outcome State Fault Refusal) (regs : List (Reg × Word))
    (cells : List (Nat × Word)) (s v c : Trit) : Bool :=
  match o with
  | .next t =>
    regs.all (fun p => decide (t.reg p.1 = p.2)) &&
      (cells.all (fun p => decide (t.mem.read p.1 = some p.2)) &&
        decide (t.cc = { s := s, v := v, c := c }))
  | .fault _ | .refused _ => false

/-! ## Data representation (95_test_vectors.md 2.1) -/

theorem test_signed_values :
    (sv 0, sv 41, sv 9841, sv 9842, sv 10935, sv 19643, sv 19682) =
      (0, 41, 9841, -9841, -8748, -40, -1) := by decide
theorem test_signs : (sign3 0, sign3 1, sign3 9841, sign3 9842, sign3 19682) = (0, 1, 1, 2, 2) := by
  decide
theorem test_complements :
    (cmp3 0, cmp3 40, cmp3 9841, cmp3 9842, cmp3 10935) =
      (w3 222222222, w3 222221111, w3 111111111, w3 111111110, w3 102222222) := by decide
theorem test_balanced : (balanced 2, balanced 41, balanced 19681) =
    (w3 111111120, w3 111120000, w3 111111102) := by decide
theorem test_sext4 :
    (sext4 0, sext4 40, sext4 41, sext4 42, sext4 78, sext4 80) =
      (0, 40, 19643, 19644, 19680, 19682) := by decide

/-! ## Decoding: words written out trit by trit (95_test_vectors.md 1.3, 2.2) -/

theorem test_decode_store :
    decodeTableWord 9 222222222 = some (.store 8 .register 8) ∧
    decodeTableWord 9 222011202 = some (.store 1 .indirect 2) ∧
    decodeTableWord 9 222011100 = some (.store 1 .autoInc 0) ∧
    decodeTableWord 9 222211022 = some (.store 7 .autoDec 8) ∧
    decodeTableWord 9 222010200 = some (.store 1 (.indexed 0) 0) ∧
    decodeTableWord 9 222122222 = some (.store 5 .register 8) := by decide
theorem test_decode_load :
    decodeTableWord 9 221012202 = some (.load 1 .register 2) ∧
    decodeTableWord 9 221221202 = some (.load 8 .indirect 2) ∧
    decodeTableWord 9 221021122 = some (.load 2 .autoInc 8) ∧
    decodeTableWord 9 221101000 = some (.load 3 .autoDec 0) ∧
    decodeTableWord 9 221100200 = some (.load 3 (.indexed 0) 0) := by decide
theorem test_decode_loadi :
    decodeTableWord 9 220010002 = some (.loadi 1 2) ∧
    decodeTableWord 9 220021111 = some (.loadi 2 40) ∧
    decodeTableWord 9 220021112 = some (.loadi 2 41) ∧
    decodeTableWord 9 220122102 = some (.loadi 5 65) ∧ sv (sext4 65) = -16 := by decide
theorem test_decode_rejects :
    [222012102, 221000000, 221110112, 222022001, 0, 111111111, 212222222, 10000000, 300000000].map
      (decodeTableWord 9) = List.replicate 9 none := by decide
/-- The second word of indexed mode is the displacement, and only indexed mode has one. -/
theorem test_decode_stream :
    (decodeWords [] 0 [w3 222010200, w3 222222221, 5]).toOption =
      some (.store 1 (.indexed 19681) 0, [5]) ∧
    (decodeWords [] 0 [w3 221021122, 41]).toOption = some (.load 2 .autoInc 8, [41]) ∧
    decodeWords [] 0 [w3 222010200] = .error .truncated ∧ decodeWords [] 0 [] = .error .truncated := by
  refine ⟨?_, ?_, rfl, rfl⟩ <;> decide
/-- The encoder against the spec's words. -/
theorem test_encode :
    encode (.store 1 (.indexed 19681) 0) = some [w3 222010200, w3 222222221] ∧
    encode (.load 8 .indirect 2) = some [w3 221221202] ∧
    encode (.loadi 2 41) = some [w3 220021112] ∧ encode (.beq 7) = none := by decide

/-- OPMAP words: a row for one address, a row for every address, and what a row may not be. -/
def demoMap : List OpmapRow :=
  [OpmapRow.mk (w3 1200) (some 100) .one (.add .inc (.star 4) (.reg 1)),
   OpmapRow.mk (w3 1200) none .two (.bne 104),
   OpmapRow.mk (w3 222000000) none .one (.bne 104),
   OpmapRow.mk (w3 1201) none .one (.loadi 1 1),
   OpmapRow.mk (w3 1202) none .two (.sub .plain (.const 1) (.reg 2))]
theorem test_decode_opmap :
    (decode demoMap 100 (w3 1200) 0).toOption = some (.add .inc (.star 4) (.reg 1)) ∧
    (decode demoMap 101 (w3 1200) 0).toOption = some (.bne 104) ∧
    instrLength demoMap 100 (w3 1200) = 1 ∧ instrLength demoMap 101 (w3 1200) = 2 ∧
    (decode demoMap 100 (w3 222000000) 0).toOption = none ∧
    (decode demoMap 100 (w3 1201) 0).toOption = none ∧
    (decode demoMap 100 (w3 1202) 0).toOption = none := by decide
theorem test_opmap_rows_wellFormed :
    demoMap.map OpmapRow.wellFormed = [true, true, false, false, false] := by decide

/-! ## Ill-formed terms (R102, R103, R104, R108) -/

theorem test_wellFormed_refuses :
    (Instr.add .inc (.star 1) (.star 2)).wellFormed .any = false ∧
    (Instr.sub .dec (.reg 1) (.reg 2)).wellFormed .any = false ∧
    (Instr.addc .plain (.star 1) (.reg 2)).wellFormed .any = false ∧
    (Instr.subb .plain (.const 1) (.reg 2)).wellFormed .any = false ∧
    (Instr.sl .inc 1 (.star 2)).wellFormed .any = false ∧
    (Instr.add .plain (.const 9) (.reg 1)).wellFormed (.only [0, 5]) = false ∧
    (Instr.srs .plain 1 (.const 9)).wellFormed (.only [0, 5]) = false := by decide
theorem test_wellFormed_accepts :
    (Instr.add .plain (.star 1) (.star 2)).wellFormed .any = true ∧
    (Instr.addc .inc (.reg 1) (.star 2)).wellFormed .any = true ∧
    (Instr.sub .plain (.reg 2) (.const 5)).wellFormed (.only [0, 5]) = true := by decide
theorem test_refusals :
    refusalOf (exec (.add .inc (.star 1) (.star 2)) State.reset) = some .suffixWithTwoStars ∧
    refusalOf (exec (.sub .dec (.reg 1) (.reg 2)) State.reset) = some .suffixWithoutStar ∧
    refusalOf (exec (.addc .plain (.star 1) (.reg 2)) State.reset) = some .sourceNotRegister ∧
    refusalOf (exec (.sl .inc 1 (.star 2)) State.reset) = some .suffixOnShift := by decide

/-! ## Store, load, load immediate: one step at 100 (95_test_vectors.md 2.3, 2.4) -/

theorem test_load_modes :
    leaves (step (start [(1, 5), (2, 19682)] [(100, 221012202)])) [(1, 19682), (8, 101)] [] 2 0 0 ∧
    leaves (step (start [(1, 5), (2, 300)] [(100, 221011202), (300, 0)])) [(1, 0), (2, 300)] [] 0 0 0 ∧
    leaves (step (start [(2, 19682)] [(100, 221011102), (19682, 111111112)]))
      [(1, 9842), (2, 0), (8, 101)] [] 2 0 0 ∧
    leaves (step (start [(2, 0)] [(100, 221011002), (19682, 2212)])) [(1, 77), (2, 19682)] [] 1 0 0 ∧
    leaves (step (start [(2, 1)] [(100, 221010202), (101, 222222221), (19682, 11)]))
      [(1, 4), (2, 1), (8, 102)] [] 1 0 0 := by decide
theorem test_load_pc :
    leaves (step (start [] [(100, 221021122), (101, 1112)])) [(2, 41), (8, 102)] [] 1 0 0 ∧
    leaves (step (start [] [(100, 221021222), (101, 222222222)])) [(2, 19682), (8, 101)] [] 2 0 0 ∧
    leaves (step (start [] [(100, 221020222), (101, 10), (105, 1200201)])) [(2, 1234), (8, 102)] []
      1 0 0 ∧
    leaves (step (start [] [(100, 221221122), (101, 1001210)])) [(8, 777)] [] 1 0 0 ∧
    leaves (step (start [(1, 5)] [(100, 221011022)])) [(1, 18341), (8, 100)] [] 2 0 0 := by decide
theorem test_store_modes :
    leaves (step (start [(1, 5), (2, 9)] [(100, 222012202)])) [(1, 5), (2, 5), (8, 101)] [] 0 1 2 ∧
    leaves (step (start [(1, 5), (2, 300)] [(100, 222011202), (300, 1)])) [(2, 300)] [(300, 5)] 0 1 2 ∧
    leaves (step (start [(1, 5), (0, 500)] [(100, 222011100)])) [(0, 501)] [(500, 5)] 0 1 2 ∧
    leaves (step (start [(1, 5), (0, 500)] [(100, 222011000)])) [(0, 499)] [(499, 5)] 0 1 2 ∧
    leaves (step (start [(1, 5), (0, 500)] [(100, 222010200), (101, 10)])) [(0, 500), (8, 102)]
      [(503, 5)] 0 1 2 := by decide
theorem test_store_pc :
    leaves (step (start [] [(100, 222222222)])) [(8, 101)] [] 0 1 2 ∧
    leaves (step (start [(5, 250)] [(100, 222122222)])) [(5, 250), (8, 250)] [] 0 1 2 ∧
    leaves (step (start [(2, 300)] [(100, 222221202)])) [] [(300, 101)] 0 1 2 ∧
    leaves (step (start [(2, 300)] [(100, 222220202), (101, 0)])) [(8, 102)] [(300, 102)] 0 1 2 ∧
    leaves (step (start [(1, 5)] [(100, 222011122), (101, 0)])) [(8, 102)] [(101, 5)] 0 1 2 := by decide
theorem test_same_register :
    leaves (step (start [(1, 300)] [(100, 221011101), (300, 1120)])) [(1, 42)] [] 1 0 0 ∧
    leaves (step (start [(1, 300)] [(100, 222011101)])) [(1, 301)] [(300, 300)] 0 1 2 ∧
    leaves (step (start [(1, 300)] [(100, 222011001)])) [(1, 299)] [(299, 300)] 0 1 2 ∧
    leaves (step (start [(1, 300)] [(100, 221011001), (299, 1120)])) [(1, 42)] [] 1 0 0 := by decide
theorem test_loadi :
    leaves (step (start [] [(100, 220010002)])) [(1, 2), (8, 101)] [] 1 0 0 ∧
    leaves (step (start [] [(100, 220021111)])) [(2, 40)] [] 1 0 0 ∧
    leaves (step (start [] [(100, 220021112)])) [(2, 19643)] [] 2 0 0 ∧
    leaves (step (start [(4, 9)] [(100, 220110000)])) [(4, 0)] [] 0 0 0 := by decide
theorem test_loadi_pc :
    leaves (step (start [] [(100, 220220021)])) [(8, 7)] [] 1 0 0 ∧
    leaves (step (start [] [(100, 220222222)])) [(8, 19682)] [] 2 0 0 := by decide

/-- R16: a register-mode load copies the tag; store, loadi and a memory load do not. -/
theorem test_tags :
    (nextOr (exec (.load 1 .register 2) (tagged State.reset)) State.reset).tags =
      some (Vector.ofFn fun i : Fin 9 => if i = 1 then 2 else i.val) ∧
    (nextOr (exec (.store 1 .register 2) (tagged State.reset)) State.reset).tags =
      (tagged State.reset).tags ∧
    (nextOr (exec (.loadi 1 2) (tagged State.reset)) State.reset).tags =
      (tagged State.reset).tags := by decide
/-- R36: the place is that of the tag of the register that supplied the address. -/
theorem test_tagged_places :
    (tagged State.reset).place 2 5 = 2 * 19683 + 5 ∧ State.reset.place 2 5 = 5 := by decide

/-! ## The faults (95_test_vectors.md 2.2) -/

theorem test_fault_mode :
    faultOf (step (start [] [(100, 222012102)])) = some (.unassignedMode 100 19100) := by decide
theorem test_fault_opcode :
    faultOf (step (start [] [(100, 212222222)])) = some (.unassignedOpcode 100 17495) := by decide
/-- R153: the mode's fault comes before the fault of a fetch of the word after. -/
theorem test_fault_order :
    faultOf (step (withHoles (start [] [(100, 222012102)]) [101])) =
      some (.unassignedMode 100 19100) ∧
    faultOf (step (withHoles (start [] [(100, 222010200)]) [101])) =
      some (.unmappedAddress 101) ∧
    faultOf (step (withHoles (start [] []) [100])) = some (.unmappedAddress 100) ∧
    faultOf (step (withHoles (start [(2, 300)] [(100, 222011202)]) [300])) =
      some (.unmappedAddress 300) := by decide

/-! ## Arithmetic (95_test_vectors.md 2.5, P4, P5) -/

theorem test_add_rows :
    addOp 9841 1 = (9842, { s := 2, v := 1, c := 0 }) ∧
    addOp 9842 9842 = (1, { s := 1, v := 1, c := 1 }) ∧
    addOp 19682 1 = (0, { s := 0, v := 0, c := 1 }) ∧
    addOp 19682 19682 = (19681, { s := 2, v := 0, c := 1 }) := by decide
theorem test_sub_rows :
    subOp 5 7 = (19681, { s := 2, v := 0, c := 0 }) ∧
    subOp 9842 1 = (9841, { s := 1, v := 1, c := 1 }) ∧
    subOp 0 9841 = (9842, { s := 2, v := 0, c := 0 }) ∧
    subOp 1 19682 = (2, { s := 1, v := 0, c := 0 }) ∧
    subOp 5 5 = (0, { s := 0, v := 0, c := 1 }) := by decide
theorem test_addc_rows :
    addcOp 2 5 7 = (14, { s := 1, v := 0, c := 0 }) ∧
    addcOp 1 19682 0 = (0, { s := 0, v := 0, c := 1 }) ∧
    addcOp 2 19682 19682 = (0, { s := 0, v := 0, c := 2 }) ∧
    addcOp 2 9841 9841 = (1, { s := 1, v := 1, c := 1 }) := by decide
theorem test_subb_rows :
    subbOp 0 7 5 = (1, { s := 1, v := 0, c := 1 }) ∧
    subbOp 0 5 5 = (19682, { s := 2, v := 0, c := 0 }) ∧
    subbOp 2 19682 0 = (0, { s := 0, v := 0, c := 2 }) ∧
    subbOp 0 0 9841 = (9841, { s := 1, v := 1, c := 0 }) ∧
    subbOp 0 9842 0 = (9841, { s := 1, v := 1, c := 1 }) := by decide

/-- `add+ r1,*r4` (P4 step 1) and `add+ *pc,pc` with its literal (P5 b). -/
theorem test_add_step :
    leaves (step (startTerm (.add .inc (.reg 1) (.star 4)) .one [(1, 1), (4, 500)] [(500, 222222222)]))
      [(1, 1), (4, 501), (8, 101)] [(500, 0)] 0 0 1 ∧
    leaves (step (startTerm (.add .inc (.star 8) (.reg 8)) .one [] [(101, 222221010)]))
      [(8, 50)] [] 1 0 1 := by decide
/-- `sub- *sp,r6` pops; `sub r2,=5` only compares. -/
theorem test_sub_step :
    leaves (step (startTerm (.sub .dec (.star 0) (.reg 6)) .one [(0, 501), (6, 7)] [(500, 12)]))
      [(0, 500), (6, 2), (8, 101)] [(500, 5)] 1 0 1 ∧
    leaves (step (startTerm (.sub .plain (.reg 2) (.const 5)) .one [(2, 7)] []))
      [(2, 7), (8, 101)] [] 2 0 0 := by decide
theorem test_addc_step :
    leaves (step (startTerm (.addc .inc (.reg 2) (.star 4)) .one [(2, 0), (4, 501)] [(501, 222222222)]))
      [(2, 0), (4, 502)] [(501, 1)] 1 0 1 := by decide
theorem test_subb_step :
    leaves (step (startTerm (.subb .plain (.reg 2) (.reg 4)) .one [(2, 0), (4, 5)] []))
      [(2, 0), (4, 6), (8, 101)] [] 1 0 1 := by decide

/-! ## Shifts (95_test_vectors.md 1.4, 1.5, 2.6) -/

/-- The source's seven examples of `sl` with a constant destination. -/
theorem test_sl_examples :
    [(9, 0), (9, 1), (9, 2), (8, 1), (8, 2), (8, 4), (8, 5)].map (fun p => (slOp p.1 p.2).2) =
      [CC.mk 0 0 0, CC.mk 0 1 1, CC.mk 0 1 2, CC.mk 1 0 0, CC.mk 2 1 0, CC.mk 1 1 1, CC.mk 2 1 1] := by
  decide
/-- `sl 2,*r2`, and `sl 9,=2` with the count field 00. -/
theorem test_sl_step :
    leaves (step (startTerm (.sl .plain 2 (.star 2)) .one [(2, 300)] [(300, 12)])) [(2, 300)]
      [(300, 45)] 1 0 0 ∧
    leaves (step (startTerm (.sl .plain 0 (.const 2)) .one [] [])) [(8, 101)] [] 0 1 2 := by decide
theorem test_sru_rows :
    sruOp 1 9842 = (3280, { s := 1, v := 1, c := 2 }) ∧
    sruOp 9 6560 = (0, { s := 0, v := 1, c := 0 }) ∧
    sruOp 4 6561 = (81, { s := 1, v := 0, c := 0 }) := by decide
theorem test_sru_step :
    leaves (step (startTerm (.sru .plain 1 (.reg 1)) .one [(1, 9842)] [])) [(1, 3280), (8, 101)] []
      1 1 2 := by decide
theorem test_srs_rows :
    srsOp 1 9841 = (3280, { s := 1, v := 1, c := 1 }) ∧
    srsOp 1 9842 = (16402, { s := 2, v := 1, c := 2 }) ∧
    srsOp 9 9842 = (19682, { s := 2, v := 1, c := 1 }) ∧
    srsOp 2 19674 = (19682, { s := 2, v := 0, c := 0 }) := by decide
theorem test_srs_step :
    leaves (step (startTerm (.srs .plain 1 (.reg 1)) .one [(1, 9842)] [])) [(1, 16402), (8, 101)] []
      2 1 2 := by decide

/-! ## Branches (95_test_vectors.md 2.7): the columns of the truth table, by `9 s + 3 v + c` -/

/-- The rows in which the condition holds. -/
def takenAt (cond : CC → Bool) : List Nat :=
  (List.range 27).filter fun n =>
    cond { s := Fin.ofNat 3 (n / 9), v := Fin.ofNat 3 (n / 3), c := Fin.ofNat 3 n }

theorem test_beq_column : takenAt condBeq = [0, 1, 2, 3, 4, 5, 6, 7, 8] := by decide
theorem test_bne_column : takenAt condBne = [9, 10, 11, 12, 13, 14, 15, 16, 17, 18, 19, 20, 21, 22, 23, 24, 25, 26] := by decide
theorem test_blts_column : takenAt condBlts = [12, 13, 14, 18, 19, 20] := by decide
theorem test_bles_column : takenAt condBles = [0, 1, 2, 3, 4, 5, 6, 7, 8, 12, 13, 14, 18, 19, 20] := by decide
theorem test_bges_column : takenAt condBges = [0, 1, 2, 3, 4, 5, 6, 7, 8, 9, 10, 11, 21, 22, 23] := by decide
theorem test_bgts_column : takenAt condBgts = [9, 10, 11, 21, 22, 23] := by decide
theorem test_bltu_column : takenAt condBltu = [0, 3, 6, 9, 12, 15, 18, 21, 24] := by decide
theorem test_bleu_column : takenAt condBleu = [0, 1, 2, 3, 4, 5, 6, 7, 8, 9, 12, 15, 18, 21, 24] := by decide
theorem test_bgeu_column : takenAt condBgeu = [1, 2, 4, 5, 7, 8, 10, 11, 13, 14, 16, 17, 19, 20, 22, 23, 25, 26] := by decide
theorem test_bgtu_column : takenAt condBgtu = [10, 11, 13, 14, 16, 17, 19, 20, 22, 23, 25, 26] := by decide
theorem test_bpos_column : takenAt condBpos = [9, 10, 11, 12, 13, 14, 15, 16, 17] := by decide
theorem test_bnpos_column : takenAt condBnpos = [0, 1, 2, 3, 4, 5, 6, 7, 8, 18, 19, 20, 21, 22, 23, 24, 25, 26] := by decide
theorem test_bneg_column : takenAt condBneg = [18, 19, 20, 21, 22, 23, 24, 25, 26] := by decide
theorem test_bnneg_column : takenAt condBnneg = [0, 1, 2, 3, 4, 5, 6, 7, 8, 9, 10, 11, 12, 13, 14, 15, 16, 17] := by decide
theorem test_bvr_column : takenAt condBvr = [0, 1, 2, 9, 10, 11, 18, 19, 20] := by decide
theorem test_bvs_column : takenAt condBvs = [3, 4, 5, 6, 7, 8, 12, 13, 14, 15, 16, 17, 21, 22, 23, 24, 25, 26] := by decide

/-- A branch at 100 with target 250, taken and not, on flags `(0,1,2)`; of one word and of two. -/
theorem test_branch_step :
    leaves (step (startTerm (.beq 250) .one [] [])) [(8, 250)] [] 0 1 2 ∧
    leaves (step (startTerm (.bne 250) .one [] [])) [(8, 101)] [] 0 1 2 ∧
    leaves (step (startTerm (.bne 250) .two [] [(101, 0)])) [(8, 102)] [] 0 1 2 := by decide

/-! ## The assembler (30_encoding.md section 6), the host's questions, the end of a run -/

theorem test_assembleLoadi :
    assembleLoadi 2 41 = [w3 221021122, w3 1112] ∧ assembleLoadi 2 40 = [w3 220021111] ∧
    assembleLoadi 2 (-40) = [w3 220021112] ∧ assembleLoadi 2 (-41) = [w3 221021122, w3 222221111] ∧
    dotWord (-51) = w3 222221010 := by decide
theorem test_text :
    instrText (.store 1 .autoInc 0) = "store r1,*sp++" ∧
    instrText (.load 7 .autoDec 8) = "load r7,*--pc" ∧
    instrText (.store 1 (.indexed 19681) 0) = "store r1,sp->-2" ∧
    lineText (some "go") (.loadi 2 41) (some "start") = "go: loadi r2,-40 ; start" ∧
    instrText (.add .dec (.star 0) (.reg 6)) = "add- *sp,r6" ∧
    instrText (.sl .plain 0 (.const 1)) = "sl 9,=1" := by decide
theorem test_withFetchWord :
    leaves (step (State.reset.withFetchWord 9 220021112)) [(2, 19643), (8, 1)] [] 2 0 0 ∧
    leaves (step (State.reset.withFetchWord 9 222010200)) [(8, 2)] [(0, 0)] 0 0 0 := by decide
/-- P10: the instruction at HALT_PC is not executed. -/
def halting (pc : Word) : State :=
  let s := start [] [(100, 222222222)]
  { s with params := { s.params with haltPc := some pc } }
theorem test_run_to_halt :
    runToHalt 1 (halting 101) = .complete ((halting 101).setReg pcReg 101) ∧
    runToHalt 0 (halting 100) = .complete (halting 100) ∧
    runToHalt 1 (halting 102) = .outOfFuel ((halting 102).setReg pcReg 101) := by decide

/-! ## Witnesses: states that meet the hypotheses of the statements -/

/-- Words on both sides of the change of sign, and the two ends of the range. -/
theorem test_witness_SignedReadingIsThreesComplement :
    (9841 : Word).val ≤ 9841 ∧ 9842 ≤ (9842 : Word).val ∧ (-9841 : Int) ≤ -9841 ∧
    (-9841 : Int) ≤ 9841 ∧ (9841 : Int) ≤ 9841 := by decide

theorem test_witness_ComplementPlusOneNegates :
    ((0 : Nat) < 9 ∧ (8 : Nat) < 9) ∧ (9840 : Word).val ≠ 9841 := by decide

/-- At the last address, mapped, on the untagged machine and beside another address; and in a hole. -/
theorem test_witness_MemoryWriteReplacesOneWord :
    State.reset.mapped 8 19682 = true ∧ State.reset.tags = none ∧ (0 : Word) ≠ 19682 ∧
    (withHoles State.reset [19682]).mapped 8 19682 = false := by
  decide

theorem test_witness_CanonicalMemoriesWithEqualReadsAreEqual :
    ∃ m n : Memory, m.wf = true ∧ n.wf = true ∧ (∀ p, m.read p = n.read p) ∧ m ≠ [] :=
  ⟨[(0, 1), (19682, 2)], [(0, 1), (19682, 2)], by decide, by decide, fun _ => rfl, by decide⟩

theorem test_witness_FetchSeesTheStoredWord :
    (start [(3, 100)] []).reg 3 = (start [(3, 100)] []).pc ∧
    (start [(3, 100)] []).place 3 (start [(3, 100)] []).pc =
      (start [(3, 100)] []).place pcReg (start [(3, 100)] []).pc ∧
    (start [(3, 100)] []).mapped 3 (start [(3, 100)] []).pc = true := by decide

theorem test_witness_TagsSeparateWords :
    ∃ (s t : State) (tg : Vector Tag 9) (x y : Reg) (a v : Word), s.tags = some tg ∧
      s.params.places = [] ∧ tg[x] ≠ tg[y] ∧ s.writeVia x a v = some t :=
  ⟨tagged State.reset, ((tagged State.reset).writeVia 0 5 7).getD State.reset,
    Vector.ofFn fun i : Fin 9 => i.val, 0, 8, 5, 7, by decide, by decide, by decide, by decide⟩

/-- A storage map in which tags 1 and 2 share a word, after a row for the same tag and one for the same
address. -/
def sharing (s : State) : State :=
  { tagged s with params := { s.params with
      places := [TagRow.mk 1 6 0, TagRow.mk 3 5 0, TagRow.mk 1 5 70000, TagRow.mk 2 9 70000] } }

/-- A listed pair, an unlisted pair, a shared word and another word. -/
theorem test_witness_StorageMapNamesThePlace :
    State.reset.tags = none ∧
    (sharing State.reset).tags = some (Vector.ofFn fun i : Fin 9 => i.val) ∧
    (∃ before after row, (sharing State.reset).params.places = before ++ row :: after ∧
      before.length = 2 ∧ (∀ q ∈ before, q.tag ≠ 1 ∨ q.addr ≠ 5) ∧ row.tag = 1 ∧ row.addr = 5) ∧
    (∀ q ∈ (sharing State.reset).params.places, q.tag ≠ 8 ∨ q.addr ≠ 5) ∧
    ((sharing State.reset).writeVia 1 5 7).isSome = true ∧
    (sharing State.reset).place 2 9 = (sharing State.reset).place 1 5 ∧
    (sharing State.reset).place 8 5 ≠ (sharing State.reset).place 1 5 :=
  ⟨rfl, by decide,
    ⟨[TagRow.mk 1 6 0, TagRow.mk 3 5 0], [TagRow.mk 2 9 70000], TagRow.mk 1 5 70000, rfl, rfl,
      by decide, rfl, rfl⟩,
    by decide, by decide, by decide, by decide⟩

theorem test_witness_CurrentFormatEncodeDecode :
    (Instr.store 8 (.indexed 19682) 8).isCurrent = true ∧ (Instr.load 0 .autoDec 8).isCurrent = true ∧
    (Instr.loadi 0 80).isCurrent = true := by decide

theorem test_witness_DecodedWordsReencode :
    ∃ (om : List OpmapRow) (A : Word) (l rest : List Word) (i : Instr),
      decodeWords om A l = .ok (i, rest) ∧ i.isCurrent = true :=
  ⟨demoMap, 100, [w3 222010200, 7, 1], [1], .store 1 (.indexed 7) 0, rfl, rfl⟩

/-- A one-word instruction, at 100 and at the last address. -/
theorem test_witness_StepRunsOneWordInstruction :
    (start [] [(100, 220222222)]).readVia pcReg (start [] [(100, 220222222)]).pc = some 18224 ∧
    instrLength [] 100 18224 = 1 ∧ decode [] 100 18224 0 = .ok (.loadi 8 80) :=
  ⟨by decide, by decide, rfl⟩

theorem test_witness_StepRunsTwoWordInstruction :
    (start [] [(100, 222010200), (101, 21)]).readVia pcReg 100 = some 19053 ∧
    instrLength [] 100 19053 = 2 ∧
    (start [] [(100, 222010200), (101, 21)]).readVia pcReg (100 + 1) = some 7 ∧
    decode [] 100 19053 7 = .ok (.store 1 (.indexed 7) 0) :=
  ⟨by decide, by decide, by decide, rfl⟩

/-- A map whose third row binds the word 0 at 100, after an ill-formed row, a row for another word and
a row for another address. -/
def behindRows (i : Instr) (n : RowWords) : State :=
  { start [] [(100, 0)] with
    params := { Params.base with opmap :=
      [OpmapRow.mk 0 none .one (.loadi 1 1), OpmapRow.mk 1 none .one (.beq 0),
       OpmapRow.mk 0 (some 99) .one (.beq 0), OpmapRow.mk 0 (some 100) n i] } }

/-- A row of one word and a row of two, each behind three rows that do not bind the word. -/
theorem test_witness_StepRunsTheOpmapTerm :
    (∃ (s : State) (row : OpmapRow) (before rows : List OpmapRow),
      s.params.opmap = before ++ row :: rows ∧ before.length = 3 ∧
      (∀ q ∈ before, q.wellFormed = false ∨ q.word ≠ row.word ∨ ∃ A, q.addr = some A ∧ A ≠ s.pc) ∧
      row.wellFormed = true ∧ (row.addr = none ∨ row.addr = some s.pc) ∧
      s.readVia pcReg s.pc = some row.word ∧ row.words = .one) ∧
    (∃ (s : State) (row : OpmapRow) (before rows : List OpmapRow),
      s.params.opmap = before ++ row :: rows ∧ before.length = 3 ∧
      (∀ q ∈ before, q.wellFormed = false ∨ q.word ≠ row.word ∨ ∃ A, q.addr = some A ∧ A ≠ s.pc) ∧
      row.wellFormed = true ∧ (row.addr = none ∨ row.addr = some s.pc) ∧
      s.readVia pcReg s.pc = some row.word ∧ row.words = .two ∧
      s.mapped pcReg (s.pc + 1) = true) := by
  have skipped : ∀ q ∈ [OpmapRow.mk 0 none .one (.loadi 1 1), OpmapRow.mk 1 none .one (.beq 0),
      OpmapRow.mk 0 (some 99) .one (.beq 0)],
      q.wellFormed = false ∨ q.word ≠ 0 ∨ ∃ A, q.addr = some A ∧ A ≠ (100 : Word) := by
    intro q hq
    simp only [List.mem_cons, List.not_mem_nil, or_false] at hq
    rcases hq with rfl | rfl | rfl
    · exact .inl (by decide)
    · exact .inr (.inl (by decide))
    · exact .inr (.inr ⟨99, rfl, by decide⟩)
  exact ⟨⟨behindRows (.add .inc (.star 8) (.reg 8)) .one,
      OpmapRow.mk 0 (some 100) .one (.add .inc (.star 8) (.reg 8)), _, [], rfl, rfl, skipped,
      by decide, by decide, by decide, rfl⟩,
    ⟨behindRows (.bvs 19682) .two, OpmapRow.mk 0 (some 100) .two (.bvs 19682), _, [], rfl, rfl,
      skipped, by decide, by decide, by decide, rfl, by decide⟩⟩

/-- The row behind the others is the one that runs. -/
theorem test_opmap_behind :
    leaves (step (behindRows (.bne 250) .two)) [(8, 102)] [] 0 1 2 := by decide

/-- The lowest and the highest unassigned opcode, the second beside an OPMAP that binds other words. -/
theorem test_witness_UnassignedOpcodeFaults :
    ((start [] [(100, 0)]).readVia pcReg (start [] [(100, 0)]).pc = some 0 ∧ opField 0 < 24 ∧
      opmapRow [] 100 0 = none) ∧
    ((start [] [(100, 212222222)]).readVia pcReg (start [] [(100, 0)]).pc = some 17495 ∧
      opField 17495 = 23 ∧ opmapRow demoMap 100 17495 = none) := by decide

/-- Each of the four modes, under each of the two opcodes. -/
theorem test_witness_UnassignedModeFaults :
    [222002100, 222002000, 222000100, 222000000].map (fun n => (opField (w3 n), mField (w3 n))) =
      [(26, 7), (26, 6), (26, 1), (26, 0)] ∧
    [221002100, 221002000, 221000100, 221000000].map (fun n => (opField (w3 n), mField (w3 n))) =
      [(25, 7), (25, 6), (25, 1), (25, 0)] ∧
    (start [] [(100, 222002100)]).readVia pcReg 100 = some (w3 222002100) := by decide

theorem test_witness_UnmappedFetchFaults :
    (withHoles State.reset [0]).mapped pcReg (withHoles State.reset [0]).pc = false ∧
    (withHoles (start [] [(100, 221000200)]) [101]).readVia pcReg 100 = some (w3 221000200) ∧
    instrLength [] 100 (w3 221000200) = 2 ∧
    (withHoles (start [] [(100, 221000200)]) [101]).mapped pcReg (100 + 1) = false := by decide

/-- At the last address: the pc, a pointer about to be incremented; and a pointer at 0. -/
theorem test_witness_AddressArithmeticWraps :
    (∃ (s : State) (w : Word) (i : Instr), s.pc = 19682 ∧ s.readVia pcReg 19682 = some w ∧
      instrLength s.params.opmap 19682 w = 1 ∧ decode s.params.opmap 19682 w 0 = .ok i) ∧
    (∃ (s : State) (x : Reg), s.mapped x 19682 = true ∧ s.reg x = 19682) ∧
    (∃ (s : State) (x : Reg), s.mapped x 19682 = true ∧ s.reg x = 0) :=
  ⟨⟨State.reset.launch 19682 [(19682, 19682)], 19682, .store 8 .register 8, by decide, by decide,
      by decide, rfl⟩,
   ⟨start [(2, 19682)] [], 2, by decide, by decide⟩, ⟨State.reset, 8, by decide, by decide⟩⟩

theorem test_witness_NoOpWordChangesOnlyThePc :
    (start [] [(100, 222222222)]).readVia pcReg (start [] [(100, 222222222)]).pc = some 19682 ∧
    (start [] [(100, 222002200)]).readVia pcReg 100 = some (wordOfFields 26 0 (8 * 9 + 0)) ∧
    (start [] [(100, 222102210)]).readVia pcReg 100 = some (wordOfFields 26 3 (8 * 9 + 3)) := by decide

/-- Every address of a memory mode at both ends of the address space, and beside a hole. -/
theorem test_witness_MemoryModes :
    (start [(2, 19682)] []).mapped 2 ((start [(2, 19682)] []).reg 2) = true ∧
    (start [(2, 0)] []).mapped 2 ((start [(2, 0)] []).reg 2 - 1) = true ∧
    (start [(2, 1)] []).mapped 2 ((start [(2, 1)] []).reg 2 + 19682) = true ∧
    (withHoles (start [(2, 300)] []) [299]).mapped 2 300 = true ∧
    (withHoles (start [(2, 300)] []) [299]).mapped 2 299 = false := by decide

/-- A state with a hole at 299 and at 300, and registers 2 and 4 at 300. -/
def holed : State := withHoles (start [(2, 300), (4, 300)] [(500, 12)]) [299, 300]

/-- A hole met by a mode; by a starred source with each suffix, the destination a second hole or a
constant; by a starred destination behind each form of source; by a shift. -/
theorem test_witness_UnmappedOperandFaults :
    (modeAddress .autoDec (holed.reg 2) = some 299 ∧
      modeAddress (.indexed 19682) (holed.reg 2) = some 299 ∧
      modeAddress .indirect (holed.reg 2) = some 300 ∧
      holed.mapped 2 299 = false ∧ holed.mapped 2 300 = false) ∧
    ((299 : Word) = holed.reg 2 - 1 ∧ (300 : Word) = holed.reg 2 ∧
      (Instr.add .dec (.star 2) (.const 5)).wellFormed holed.params.legacyConst = true ∧
      (Instr.sub .inc (.star 2) (.reg 2)).wellFormed holed.params.legacyConst = true ∧
      (Instr.sub .plain (.star 2) (.star 4)).wellFormed holed.params.legacyConst = true) ∧
    (operandIs .dec holed (.const 5) 5 ∧ operandIs .inc holed (.reg 4) 300 ∧
      (Instr.add .dec (.const 5) (.star 4)).wellFormed holed.params.legacyConst = true ∧
      (Instr.sub .plain (.reg 4) (.star 4)).wellFormed holed.params.legacyConst = true ∧
      (Instr.addc .inc (.reg 4) (.star 4)).wellFormed holed.params.legacyConst = true ∧
      (Instr.subb .inc (.reg 4) (.star 4)).wellFormed holed.params.legacyConst = true) ∧
    ∃ s : State, operandIs .plain s (.star 1) 12 ∧ s.mapped 4 (s.reg 4) = false ∧
      (Instr.add .plain (.star 1) (.star 4)).wellFormed s.params.legacyConst = true :=
  ⟨by decide, by decide, ⟨rfl, rfl, by decide, by decide, by decide, by decide⟩,
    withHoles (start [(1, 500), (4, 300)] [(500, 110)]) [300], rfl, by decide, by decide⟩

/-- `-` names the address before the register; the source's fault comes before the destination's. -/
theorem test_fault_operand :
    faultOf (exec (.add .dec (.reg 1) (.star 4)) holed) = some (.unmappedAddress 299) ∧
    faultOf (exec (.sub .inc (.star 4) (.reg 1)) holed) = some (.unmappedAddress 300) ∧
    faultOf (exec (.sub .plain (.star 4) (.star 2))
      (withHoles (start [(4, 300), (2, 301)] []) [300, 301])) = some (.unmappedAddress 300) ∧
    faultOf (exec (.srs .plain 1 (.star 4)) holed) = some (.unmappedAddress 300) := by decide

theorem test_witness_LoadRegisterModeCopiesRegisterAndTag :
    State.reset.tags = none ∧
    (tagged State.reset).tags = some (Vector.ofFn fun i : Fin 9 => i.val) ∧ (1 : Reg) ≠ 8 := by decide

/-- The constants on both sides of the change of sign. -/
theorem test_witness_LoadiLoadsTheSignExtendedConstant :
    [220000000, 220001111, 220001112, 220222222].map (fun n => (opField (w3 n), addrField (w3 n))) =
      [(24, 0), (24, 40), (24, 41), (24, 80)] ∧
    (start [] [(100, 220222222)]).readVia pcReg 100 = some (w3 220222222) := by decide

/-- One state for each clause. -/
theorem test_witness_StepOrderDecidesTheseForms :
    (start [(1, 300)] []).mapped 1 ((start [(1, 300)] []).reg 1) = true ∧
    (start [(1, 0)] []).mapped 1 ((start [(1, 0)] []).reg 1 - 1) = true ∧
    ((2 : Reg) ≠ pcReg ∧
      (start [] [(100, 222220202), (101, 0)]).readVia pcReg 100 =
        some (wordOfFields 26 pcReg (2 * 9 + 2)) ∧
      (start [] [(100, 222220202), (101, 0)]).readVia pcReg (100 + 1) = some 0 ∧
      (start [] [(100, 222220202), (101, 0)]).mapped 2 (0 + 0) = true) ∧
    ((1 : Reg) ≠ pcReg ∧
      (start [] [(100, 222010222), (101, 10)]).readVia pcReg 100 =
        some (wordOfFields 26 1 (2 * 9 + 8)) ∧
      (start [] [(100, 222010222), (101, 10)]).readVia pcReg (100 + 1) = some 3 ∧
      (start [] [(100, 222010222), (101, 10)]).mapped pcReg (100 + 1 + 1 + 3) = true) ∧
    (start [] [(100, 221010222), (101, 10)]).readVia pcReg 100 =
      some (wordOfFields 25 1 (2 * 9 + 8)) ∧
    ((start [] [(100, 222011122)]).readVia pcReg 100 = some (wordOfFields 26 1 (4 * 9 + 8)) ∧
      (start [] [(100, 222011122)]).mapped pcReg (100 + 1) = true) := by decide

theorem test_witness_PushThenPopRestores :
    (0 : Reg) ≠ pcReg ∧ (8 : Reg) ≠ 0 ∧
    (start [(0, 19682)] []).mapped 0 ((start [(0, 19682)] []).reg 0) = true ∧
    (start [(0, 0)] []).mapped 0 ((start [(0, 0)] []).reg 0 - 1) = true := by decide

theorem test_witness_JumpToItselfNeverStops :
    (5 : Reg) ≠ pcReg ∧ (start [(5, 100)] [(100, 222122222)]).reg 5 =
      (start [(5, 100)] [(100, 222122222)]).pc ∧
    (start [(5, 100)] [(100, 222122222)]).readVia pcReg 100 =
      some (wordOfFields 26 5 (8 * 9 + 8)) := by decide

/-- The two ends of the one-word range, and the first constants outside it. -/
theorem test_witness_AssembledLoadiLoadsTheConstant :
    ∀ k ∈ [(-41 : Int), -40, 40, 41], ∃ s : State,
      ∀ (j : Nat) (w : Word), (assembleLoadi 2 k)[j]? = some w →
        s.readVia pcReg (s.pc + Word.ofNat j) = some w := by
  have key : ∀ (s : State) (l : List Word),
      (∀ j < l.length, s.readVia pcReg (s.pc + Word.ofNat j) = l[j]?) →
      ∀ (j : Nat) (w : Word), l[j]? = some w → s.readVia pcReg (s.pc + Word.ofNat j) = some w := by
    intro s l h j w hj
    rw [h j (List.getElem?_eq_some_iff.1 hj).1, hj]
  intro k hk
  simp only [List.mem_cons, List.not_mem_nil, or_false] at hk
  rcases hk with rfl | rfl | rfl | rfl
  · exact ⟨start [] [(100, 221021122), (101, 222221111)], key _ _ (by decide)⟩
  · exact ⟨start [] [(100, 220021112)], key _ _ (by decide)⟩
  · exact ⟨start [] [(100, 220021111)], key _ _ (by decide)⟩
  · exact ⟨start [] [(100, 221021122), (101, 1112)], key _ _ (by decide)⟩

/-- `add` and `sub`: starred source with a suffix, constant destination, starred destination; at the
values where the sum and the difference leave the range. -/
theorem test_witness_AddSumsAndReports :
    ∃ s : State, ((Instr.add .dec (.star 4) (.reg 4)).wellFormed s.params.legacyConst = true ∧
        operandIs .dec s (.star 4) 9842 ∧ operandIs .dec s (.reg 4) 9841) ∧
      ((Instr.sub .plain (.star 4) (.const 9841)).wellFormed s.params.legacyConst = true ∧
        operandIs .plain s (.star 4) 19682 ∧ operandIs .plain s (.const 9841) 9841) ∧
      (Instr.add .inc (.const 5) (.star 4)).wellFormed s.params.legacyConst = true ∧
        operandIs .inc s (.const 5) 5 ∧ operandIs .inc s (.star 4) 19682 :=
  ⟨start [(4, 9841)] [(9840, 111111112), (9841, 222222222)],
    ⟨by decide, rfl, rfl⟩, ⟨by decide, rfl, rfl⟩, by decide, rfl, rfl⟩

/-- `addc` and `subb` with each value of the carry trit. -/
theorem test_witness_AddcAddsTheCarryTrit :
    ∀ c : Trit, ∃ s : State, s.cc.c = c ∧
      ((Instr.addc .inc (.reg 2) (.star 4)).wellFormed s.params.legacyConst = true ∧
        operandIs .inc s (.reg 2) 19682 ∧ operandIs .inc s (.star 4) 19682) ∧
      (Instr.subb .plain (.reg 2) (.const 0)).wellFormed s.params.legacyConst = true ∧
        operandIs .plain s (.reg 2) 19682 ∧ operandIs .plain s (.const 0) 0 :=
  fun c => ⟨(start [(2, 19682), (4, 500)] [(500, 222222222)]).setCC { s := 0, v := 0, c := c },
    rfl, ⟨by decide +revert, rfl, rfl⟩, by decide +revert, rfl, rfl⟩

/-- At both ends of the address space. -/
theorem test_witness_SuffixModifiesTheStarredRegister :
    (1 : Reg) ≠ 4 ∧ (start [(4, 19682)] []).mapped 4 ((start [(4, 19682)] []).reg 4) = true ∧
    (start [(4, 0)] []).mapped 4 ((start [(4, 0)] []).reg 4 - 1) = true := by decide

theorem test_witness_EighteenTrit :
    (3 : Reg) ≠ 2 ∧ (3 : Reg) ≠ 4 ∧ (2 : Reg) ≠ pcReg ∧ (3 : Reg) ≠ pcReg ∧ (4 : Reg) ≠ pcReg := by
  decide

/-- A target behind and the largest step forward. -/
theorem test_witness_PcRelativeAddReachesItsTarget :
    (start [] []).params.legacyConst.allows (250 - (start [] []).pc) = true ∧
    (start [] [(100, 12120)]).readVia pcReg (start [] [(100, 12120)]).pc = some (250 - 100) := by
  decide

/-- The three shifts: a constant, a register, a starred register; the fields 1, 8 and 0. -/
theorem test_witness_Shifts :
    ∃ s : State, (Operand.const 5).constOk s.params.legacyConst = true ∧
      operandIs .plain s (.const 5) 5 ∧ (Operand.reg 8).constOk s.params.legacyConst = true ∧
      operandIs .plain s (.reg 8) 100 ∧ (Operand.star 4).constOk s.params.legacyConst = true ∧
      operandIs .plain s (.star 4) 9842 ∧
      [(0 : CountField), 1, 8].map (fun n => if n.val = 0 then 9 else n.val) = [9, 1, 8] :=
  ⟨start [(4, 19682)] [(19682, 111111112)], rfl, rfl, rfl, rfl, rfl, rfl, rfl⟩

theorem test_witness_ShiftsMoveTrits :
    (1 ≤ (1 : Nat) ∧ 1 ≤ 9 ∧ (0 : Nat) < 9) ∧ (1 ≤ (9 : Nat) ∧ (9 : Nat) ≤ 9 ∧ (8 : Nat) < 9) := by
  decide

/-- A compare whose difference overflows. -/
theorem test_witness_BranchesReportTheComparison :
    ∃ s : State, (Instr.sub .plain (.reg 2) (.const 9841)).wellFormed s.params.legacyConst = true ∧
      operandIs .plain s (.reg 2) 9842 ∧ operandIs .plain s (.const 9841) 9841 :=
  ⟨start [(2, 9842)] [], by decide, rfl, rfl⟩

/-- A branch, a load, a loadi; and a store run with 2 in the overflow trit. -/
theorem test_witness_OnlyTheseSetTheFlags :
    (∃ t, exec (.beq 250) State.reset = .next t ∧ leavesFlags (.beq 250) = true) ∧
    (∃ t, exec (.load 8 .register 0) State.reset = .next t) ∧
    (∃ t, exec (.loadi 1 80) State.reset = .next t) ∧
    (∃ t, exec (.store 1 .register 2) (State.reset.setCC { s := 1, v := 2, c := 0 }) = .next t ∧
      t.cc.v = 2) :=
  ⟨⟨_, rfl, rfl⟩, ⟨_, rfl⟩, ⟨_, rfl⟩, ⟨_, rfl, rfl⟩⟩

theorem test_witness_OnlyStoresAndStarredTermsWriteMemory :
    (∃ t, exec (.add .inc (.star 4) (.reg 1)) State.reset = .next t) ∧
    mayWriteMemory (.add .inc (.star 4) (.reg 1)) = false ∧
    (∃ t, exec (.store 1 .register 2) State.reset = .next t) ∧
    mayWriteMemory (.store 1 .register 2) = false :=
  ⟨⟨_, rfl⟩, rfl, ⟨_, rfl⟩, rfl⟩

theorem test_witness_OnlyRegisterLoadChangesTags :
    (∃ t, exec (.load 1 .indirect 2) (tagged State.reset) = .next t) ∧
    mayCopyTag (.load 1 .indirect 2) = false :=
  ⟨⟨_, rfl⟩, rfl⟩

theorem test_witness_NonTermsAreRefusedByName :
    (Operand.star 1).isReg = false ∧ (Operand.const 1).isReg = false ∧ Suffix.inc ≠ .plain ∧
    Suffix.dec ≠ .plain ∧ (Operand.const 1).isStar = false ∧
    (Operand.star 1).isStar ≠ (Operand.const 9).isStar ∧
    (LegacyConst.only [0, 5]).allows 9 = false := by decide

theorem test_witness_EveryTermRunsOnAllRam :
    State.reset.allRam ∧
    (Instr.subb .dec (.reg 1) (.star 2)).wellFormed State.reset.params.legacyConst = true :=
  ⟨rfl, by decide⟩

theorem test_witness_AllRamFaultsOnlyOnUnassignedWords :
    ((start [] [(100, 0)]).allRam ∧ step (start [] [(100, 0)]) = .fault (.unassignedOpcode 100 0)) ∧
    ((start [] [(100, 221000000)]).allRam ∧
      step (start [] [(100, 221000000)]) = .fault (.unassignedMode 100 18225)) :=
  ⟨⟨rfl, fault_of_faultOf (by decide)⟩, ⟨rfl, fault_of_faultOf (by decide)⟩⟩

/-- A step that writes the last address, from a state that meets both invariants. -/
theorem test_witness_StepKeepsTheInvariants :
    ∃ s t : State, s.memInv ∧ s.vInv ∧ step s = .next t ∧ t.mem.length = 2 :=
  ⟨start [(2, 19682)] [(100, 222011202)], nextOr (step (start [(2, 19682)] [(100, 222011202)])) State.reset,
    ⟨by decide, fun _ => by decide⟩, (by decide : (1 : Trit) ≠ 2), next_of_isNext _ (by decide), by decide⟩

theorem test_witness_StepCreatesNoTagAndKeepsParameters :
    ∃ (s t : State) (tg tg' : Vector Tag 9), step s = .next t ∧ s.tags = some tg ∧
      t.tags = some tg' ∧ tg ≠ tg' :=
  ⟨(tagged State.reset).launch 0 [(8 * 19683, w3 221012202)],
    nextOr (step ((tagged State.reset).launch 0 [(8 * 19683, w3 221012202)])) State.reset,
    Vector.ofFn fun i : Fin 9 => i.val,
    Vector.ofFn fun i : Fin 9 => if i = 1 then 2 else i.val,
    next_of_isNext _ (by decide), by decide, by decide, by decide⟩

theorem test_witness_RunEndsFirstAtHaltPc :
    runToHalt 1 (halting 101) = .complete ((halting 101).setReg pcReg 101) ∧
    (halting 101).params.haltPc ≠ some (halting 101).pc := by decide

end Sys2Proof.Tests
end

section
/-! PROOFS. The two readings of a word by its sign (R3, R4 of 00_scope.md): the signed value and the
sign trit. -/

namespace Sys2Proof.Machine

/-! ## The signed value -/

theorem sv_of_le {w : Word} (h : w.val ≤ 9841) : sv w = w.val := if_pos h

theorem sv_of_ge {w : Word} (h : 9842 ≤ w.val) : sv w = (w.val : Int) - 19683 :=
  if_neg (by omega)

/-- The signed value differs from the word by a multiple of 3^9, so it determines the word. -/
theorem ofInt_sv (w : Word) : Word.ofInt (sv w) = w := by
  have hval := ofInt_val (sv w)
  have hlt := w.isLt
  apply Fin.ext
  rcases Nat.lt_or_ge 9841 w.val with hneg | hpos
  · rw [sv_of_ge hneg] at hval ⊢; omega
  · rw [sv_of_le hpos] at hval ⊢; omega

theorem sv_injective : Function.Injective sv :=
  Function.LeftInverse.injective ofInt_sv

theorem sv_nonneg_iff (w : Word) : 0 ≤ sv w ↔ w.val ≤ 9841 := by
  have hlt := w.isLt
  unfold sv
  split_ifs <;> omega

theorem sv_neg_iff (w : Word) : sv w < 0 ↔ 9842 ≤ w.val := by
  rw [← not_le, sv_nonneg_iff]; omega

theorem sv_eq_zero_iff (w : Word) : sv w = 0 ↔ w.val = 0 := by
  have hsv : sv 0 = 0 := rfl
  exact (sv_injective.eq_iff' hsv).trans Fin.ext_iff

theorem sv_pos_iff (w : Word) : 0 < sv w ↔ 1 ≤ w.val ∧ w.val ≤ 9841 := by
  rw [lt_iff_le_and_ne, sv_nonneg_iff, ne_comm, ne_eq, sv_eq_zero_iff]; omega

/-! ## The sign trit -/

theorem sign3_eq_zero_iff (w : Word) : sign3 w = 0 ↔ w.val = 0 := by
  unfold sign3
  split_ifs <;> simp_all

theorem sign3_eq_one_iff (w : Word) : sign3 w = 1 ↔ 1 ≤ w.val ∧ w.val ≤ 9841 := by
  unfold sign3
  split_ifs <;> simp <;> omega

theorem sign3_eq_two_iff (w : Word) : sign3 w = 2 ↔ 9842 ≤ w.val := by
  unfold sign3
  split_ifs <;> simp <;> omega

/-! ## The obligations -/

/-- Settles O58: `Word.ofInt` is the inverse of the signed value on the signed range, which gives
the word of each integer and, the signed value being one to one, that there is no other. -/
theorem signedReadingIsThreesComplement : Obligations.SignedReadingIsThreesComplement := by
  unfold Obligations.SignedReadingIsThreesComplement
  refine ⟨fun w => ⟨sv_of_le, sv_of_ge, sv_range w⟩, fun z hlo hhi => ?_, ?_⟩
  · have hz : sv (Word.ofInt z) = z := sv_ofInt ⟨hlo, hhi⟩
    exact ⟨Word.ofInt z, hz, fun u hu => sv_injective (hu.trans hz.symm)⟩
  · decide

/-- Settles O1: the sign trit and the sign of the signed value split the words at the same places. -/
theorem signTritReportsTheSign : Obligations.SignTritReportsTheSign := by
  unfold Obligations.SignTritReportsTheSign
  intro w
  have hzero := sign3_eq_zero_iff w
  have hone := sign3_eq_one_iff w
  have htwo := sign3_eq_two_iff w
  exact ⟨hzero, hone, htwo, hzero.trans (sv_eq_zero_iff w).symm, hone.trans (sv_pos_iff w).symm,
    htwo.trans (sv_neg_iff w).symm⟩

end Sys2Proof.Machine
end

section
/-! PROOFS. `loadi` (R56 of 30_encoding.md, R92 of 41_data_transfer.md): its word, its step and its
meaning. -/

namespace Sys2Proof

/-! ## The word of a `loadi` -/

section decoding
variable {w : Word} (om : List OpmapRow) (A : Word)

theorem decode_of_opField_eq_24 (h : opField w = 24) (d : Word) :
    decode om A w d = .ok (.loadi (rField w) (addrField w)) := by
  simp [decode, decodeCurrent, h]

theorem instrLength_of_opField_eq_24 (h : opField w = 24) : instrLength om A w = 1 := by
  simp [instrLength, currentLength, h]

end decoding

end Sys2Proof

namespace Sys2Proof.Machine

/-! ## The step and the meaning -/

/-- No OPMAP can change the step at a word whose `op` is 220: it is one of the assigned ones. -/
theorem step_of_opField_eq_24 {s : State} {w : Word} (hr : s.readVia pcReg s.pc = some w)
    (h : opField w = 24) :
    step s = exec (.loadi (rField w) (addrField w)) (s.setReg pcReg (s.pc + 1)) := by
  have hlen : instrLength s.params.opmap s.pc w ≠ 2 := by simp [instrLength_of_opField_eq_24 _ _ h]
  exact step_of_fetchInstr (fetchInstr_one hr hlen (decode_of_opField_eq_24 _ _ h 0))

theorem exec_loadi (r : Reg) (k : Fin 81) (s : State) :
    exec (.loadi r k) s = .next ((s.setReg r (sext4 k)).setCC (loadCC (sext4 k))) := rfl

/-- A write to `x[r]` and to the flags leaves every other register. -/
theorem regsSameBut_setReg_setCC (s : State) (r : Reg) (v : Word) (k : CC) :
    regsSameBut s ((s.setReg r v).setCC k) [r] := by
  intro i hi
  have hne : r ≠ i := fun e => hi (by simp [e])
  rw [setCC_reg, reg_setReg_ne s v hne]

/-! ## The obligation -/

/-- Settles O24: the step is the fetch of a one-word instruction, and the meaning writes the
sign-extended field to `x[r]` and its report to the flags, and writes nothing else. -/
theorem loadiLoadsTheSignExtendedConstant :
    Obligations.LoadiLoadsTheSignExtendedConstant := by
  unfold Obligations.LoadiLoadsTheSignExtendedConstant
  refine ⟨fun s w hr h => step_of_opField_eq_24 hr h, fun s r k => ⟨_, exec_loadi r k s, ?_⟩⟩
  have hreg : ((s.setReg r (sext4 k)).setCC (loadCC (sext4 k))).reg r = sext4 k := by simp
  rw [hreg]
  exact ⟨sv_sext4 k, rfl, rfl, rfl, regsSameBut_setReg_setCC s r _ _, ⟨rfl, rfl⟩, fun _ => rfl⟩

end Sys2Proof.Machine
end

section
/-! PROOFS. The current format (30_encoding.md sections 1 to 4): the decoder and the encoder undo
each other on `store`, `load` and `loadi`, at every address and under every OPMAP. -/

namespace Sys2Proof

/-! ## Decoding a list of words -/

section stream
variable {om : List OpmapRow} {A w d : Word} {i : Instr} {l rest : List Word}

theorem decodeWords_of_one_word (hl : instrLength om A w ≠ 2) (hd : decode om A w 0 = .ok i) :
    decodeWords om A (w :: rest) = .ok (i, rest) := by
  simp [decodeWords, hl, hd, Except.map, Except.mapError]

theorem decodeWords_of_two_words (hl : instrLength om A w = 2) (hd : decode om A w d = .ok i) :
    decodeWords om A (w :: d :: rest) = .ok (i, rest) := by
  simp [decodeWords, hl, hd, Except.map, Except.mapError]

/-- A decoded word whose rest is handed on: the only way the stream decoder answers. -/
theorem mapError_map_eq_ok {r : Except Reject Instr}
    (h : ((r.map fun j => (j, l)).mapError StreamReject.word) = .ok (i, rest)) :
    r = .ok i ∧ l = rest := by
  cases r with
  | error e => cases h
  | ok j => cases h; exact ⟨rfl, rfl⟩

/-- A list that decodes begins with one word or two that do. -/
theorem decodeWords_ok (h : decodeWords om A l = .ok (i, rest)) :
    (∃ w, instrLength om A w ≠ 2 ∧ decode om A w 0 = .ok i ∧ l = w :: rest) ∨
    (∃ w d, instrLength om A w = 2 ∧ decode om A w d = .ok i ∧ l = w :: d :: rest) := by
  unfold decodeWords at h
  split at h
  next => cases h
  next w l =>
    split at h
    next hl =>
      split at h
      next => cases h
      next d l =>
        obtain ⟨hd, rfl⟩ := mapError_map_eq_ok h
        exact .inr ⟨w, d, hl, hd, rfl⟩
    next hl =>
      obtain ⟨hd, rfl⟩ := mapError_map_eq_ok h
      exact .inl ⟨w, hl, hd, rfl⟩

end stream

/-! ## From the instruction to its words and back -/

/-- Only indexed mode has a second word, and only its field is 02. -/
theorem one_word_of_not_indexed {m : Mode} (h : ∀ d, m ≠ .indexed d) :
    m.field ≠ 2 ∧ m.extraWords = [] := by
  cases m with
  | indexed d => exact absurd rfl (h d)
  | _ => exact ⟨by simp [Mode.field], rfl⟩

/-- The words of a `store` or a `load` decode to it, whatever follows them. -/
theorem decodeWords_transfer (om : List OpmapRow) (A : Word) {op : Nat} (hop : op = 26 ∨ op = 25)
    (r x : Reg) (m : Mode) (rest : List Word) :
    decodeWords om A ((wordOfFields op r (m.field * 9 + x.val) :: m.extraWords) ++ rest) =
      .ok (if op = 26 then .store r m x else .load r m x, rest) := by
  by_cases hm : ∃ d, m = .indexed d
  · obtain ⟨d, rfl⟩ := hm
    obtain ⟨hd, hl⟩ := decode_transfer om A hop r x (.indexed d) d (by simp)
    exact decodeWords_of_two_words hl hd
  · have hne : ∀ d, m ≠ .indexed d := fun d e => hm ⟨d, e⟩
    obtain ⟨hfield, hextra⟩ := one_word_of_not_indexed hne
    obtain ⟨hd, hl⟩ := decode_transfer om A hop r x m 0 fun d e => absurd e (hne d)
    rw [hextra]
    exact decodeWords_of_one_word (by rw [hl, if_neg hfield]; decide) hd

/-- The word of a `loadi` decodes to it, whatever follows it. -/
theorem decodeWords_loadi (om : List OpmapRow) (A : Word) (r : Reg) (k : Fin 81)
    (rest : List Word) :
    decodeWords om A (wordOfFields 24 r k.val :: rest) = .ok (.loadi r k, rest) := by
  obtain ⟨hop, hr, haddr, -, -⟩ :=
    fields_wordOfFields (op := 24) (addr := k.val) r (by omega) k.isLt
  have hd := decode_of_opField_eq_24 om A hop 0
  rw [hr, Fin.ext haddr] at hd
  exact decodeWords_of_one_word (by simp [instrLength_of_opField_eq_24 om A hop]) hd

/-- Settles O8: by the three instructions of the format, each decoded from its own fields. -/
theorem currentFormatEncodeDecode : Obligations.CurrentFormatEncodeDecode := by
  unfold Obligations.CurrentFormatEncodeDecode
  intro i om A rest hi
  cases i with
  | store r m x => exact ⟨_, rfl, decodeWords_transfer om A (.inl rfl) r x m rest⟩
  | load r m x => exact ⟨_, rfl, decodeWords_transfer om A (.inr rfl) r x m rest⟩
  | loadi r k => exact ⟨_, rfl, decodeWords_loadi om A r k rest⟩
  | _ => cases hi

/-! ## From the words to the instruction and back -/

section reencode
variable {om : List OpmapRow} {A w d : Word} {i : Instr}

/-- OPMAP's terms are none of the current format, so the format decodes such an instruction. -/
theorem decodeCurrent_of_decode (h : decode om A w d = .ok i) (hi : i.isCurrent = true) :
    24 ≤ opField w ∧ decodeCurrent w d = .ok i := by
  unfold decode at h
  split at h
  next hop => exact ⟨hop, h⟩
  next =>
    split at h
    next row hrow =>
      cases h
      have hwf := (opmapRow_some hrow).1
      simp [OpmapRow.wellFormed, hi] at hwf
    next => cases h

theorem map_modeOf_eq_ok {m : Nat} {g : Mode → Instr} (h : (modeOf m d).map g = .ok i) :
    ∃ mode, modeOf m d = .ok mode ∧ i = g mode := by
  cases hm : modeOf m d with
  | error e => simp [hm, Except.map] at h
  | ok mode =>
    simp only [hm, Except.map, Except.ok.injEq] at h
    exact ⟨mode, rfl, h.symm⟩

/-- The first word and the mode of a decoded `store` or `load` give the encoder's words back. -/
theorem transfer_words {mode : Mode} (hop : opField w = 26 ∨ opField w = 25)
    (hm : modeOf (mField w) d = .ok mode) :
    wordOfFields (opField w) (rField w) (mode.field * 9 + (xField w).val) :: mode.extraWords =
      w :: if currentLength w = 2 then [d] else [] := by
  obtain ⟨hfield, hone, htwo⟩ := modeOf_ok hm
  rw [hfield, (wordOfFields_fields w).1]
  by_cases h2 : mField w = 2
  · have hl : currentLength w = 2 := by rw [currentLength, if_pos ⟨by omega, h2⟩]
    rw [htwo h2, if_pos hl]
  · have hl : currentLength w ≠ 2 := by
      rw [currentLength, if_neg (fun h => h2 h.2)]; decide
    rw [hone h2, if_neg hl]

/-- The encoding of what the current format decodes is the first word, and the second where the
instruction takes two. -/
theorem encode_decodeCurrent (h : decodeCurrent w d = .ok i) :
    encode i = some (w :: if currentLength w = 2 then [d] else []) := by
  unfold decodeCurrent at h
  split at h
  next hop =>
    obtain ⟨mode, hm, rfl⟩ := map_modeOf_eq_ok h
    rw [← transfer_words (.inl hop) hm, hop]; rfl
  next hop =>
    obtain ⟨mode, hm, rfl⟩ := map_modeOf_eq_ok h
    rw [← transfer_words (.inr hop) hm, hop]; rfl
  next hop =>
    cases h
    have hw := (wordOfFields_fields w).2
    rw [hop] at hw
    simp [encode, hw, currentLength, hop]
  next => cases h

theorem encode_of_decode (h : decode om A w d = .ok i) (hi : i.isCurrent = true) :
    encode i = some (w :: if instrLength om A w = 2 then [d] else []) := by
  obtain ⟨hop, hcur⟩ := decodeCurrent_of_decode h hi
  rw [encode_decodeCurrent hcur, instrLength, if_pos hop]

end reencode

/-- Settles O9: the stream decoder takes one word or two, and those are the encoding. -/
theorem decodedWordsReencode : Obligations.DecodedWordsReencode := by
  unfold Obligations.DecodedWordsReencode
  intro om A l rest i h hi
  rcases decodeWords_ok h with ⟨w, hl, hd, rfl⟩ | ⟨w, d, hl, hd, rfl⟩
  · exact ⟨[w], by rw [encode_of_decode hd hi, if_neg hl], rfl⟩
  · exact ⟨[w, d], by rw [encode_of_decode hd hi, if_pos hl], rfl⟩

/-- Settles O10: nine words, each decoded by evaluating the decoder. -/
theorem writtenOutWordsDecode : Obligations.WrittenOutWordsDecode := by
  unfold Obligations.WrittenOutWordsDecode
  decide

end Sys2Proof
end

section
/-! PROOFS. The whole-machine rules: what no instruction changes, from what the change of an
instruction can be (Laws/Exec.lean), and what every step keeps. -/

namespace Sys2Proof.Machine

/-! ## What an instruction leaves alone -/

/-- Settles O46: memory changes only where the instruction may write it. -/
theorem onlyStoresAndStarredTermsWriteMemory :
    Obligations.OnlyStoresAndStarredTermsWriteMemory := by
  unfold Obligations.OnlyStoresAndStarredTermsWriteMemory
  intro i s t h hw
  rcases (exec_change h).mem with hm | ⟨hw', -⟩
  · exact hm
  · simp [hw] at hw'

/-- Settles O47: the tags change only by the copy of a register-mode `load`. -/
theorem onlyRegisterLoadChangesTags : Obligations.OnlyRegisterLoadChangesTags := by
  unfold Obligations.OnlyRegisterLoadChangesTags
  intro i s t h hc
  rcases (exec_change h).tags with ht | ⟨r, x, rfl, -⟩
  · exact ht
  · simp [mayCopyTag] at hc

/-- The flags of a `load` report the register it leaves, in every mode. -/
theorem load_cc {r x : Reg} {m : Mode} {s t : State} (h : exec (.load r m x) s = .next t) :
    t.cc = loadCC (t.reg r) := by
  rcases execLoad_cases r m x s with ⟨-, e⟩ | ⟨a, -, -, e⟩ | ⟨a, -, -, e⟩ <;>
    cases e.symm.trans h <;> simp

theorem loadi_cc {r : Reg} {k : Fin 81} {s t : State} (h : exec (.loadi r k) s = .next t) :
    t.cc = loadCC (t.reg r) := by
  cases (exec_loadi r k s).symm.trans h
  simp

/-- Settles O45: the flags are kept or have `v` other than 2, and those of a load are a report. -/
theorem onlyTheseSetTheFlags : Obligations.OnlyTheseSetTheFlags := by
  unfold Obligations.OnlyTheseSetTheFlags
  intro i s t h
  have hflags := (exec_change h).flags
  refine ⟨fun hl => ?_, ?_, ?_, fun hv => ?_⟩
  · rcases hflags with ⟨-, hcc⟩ | ⟨hl', -⟩
    · exact hcc
    · simp [hl] at hl'
  · rintro r x m rfl
    rw [load_cc h]
    exact ⟨rfl, rfl, rfl⟩
  · rintro r k rfl
    rw [loadi_cc h]
    exact ⟨rfl, rfl, rfl⟩
  · rcases hflags with ⟨-, hcc⟩ | ⟨-, hv'⟩
    · exact hcc
    · exact absurd hv hv'

/-! ## What every step keeps -/

/-- A step changes, besides registers, what one instruction changes. -/
theorem step_change {s t : State} (h : step s = .next t) :
    ∃ i pc', Change i (s.setReg pcReg pc') t := by
  obtain ⟨i, pc', he⟩ := step_next h
  exact ⟨i, pc', exec_change he⟩

/-- Writing at the place of an access keeps the canonical form, and on the untagged machine lists
one more address. -/
theorem memInv_of_write {s t : State} {j : Reg} {a v : Word} (h : s.memInv)
    (ht : s.tags = none ↔ t.tags = none) (hm : t.mem = s.mem.write (s.place j a) v) : t.memInv := by
  obtain ⟨hwf, haddr⟩ := h
  refine ⟨hm ▸ wf_write hwf _ _, fun hnone e he => ?_⟩
  have hs := ht.2 hnone
  rw [hm] at he
  rcases mem_write he with rfl | he
  · simp [place_untagged hs]
  · exact haddr hs e he

section change
variable {i : Instr} {s t : State}

/-- No change adds or removes the tags. -/
theorem Change.tags_none (h : Change i s t) : s.tags = none ↔ t.tags = none := by
  rcases h.tags with ht | ⟨r, x, -, ht⟩ <;> simp [ht]

theorem Change.memInv (h : Change i s t) (hs : s.memInv) : t.memInv := by
  rcases h.mem with hm | ⟨-, j, a, v, -, hm⟩
  · exact ⟨hm ▸ hs.1, fun hnone => hm ▸ hs.2 (h.tags_none.2 hnone)⟩
  · exact memInv_of_write hs h.tags_none hm

theorem Change.vInv (h : Change i s t) (hs : s.vInv) : t.vInv := by
  rcases h.flags with ⟨-, hcc⟩ | ⟨-, hv⟩
  · rw [State.vInv, hcc]; exact hs
  · exact hv

/-- Each tag after a change is one that some register had. -/
theorem Change.tag_of_register (h : Change i s t) {tg tg' : Vector Tag 9} (hs : s.tags = some tg)
    (ht : t.tags = some tg') (q : Reg) : ∃ j : Reg, tg'[q] = tg[j] := by
  rcases h.tags with e | ⟨r, x, -, e⟩
  · obtain rfl : tg = tg' := by simpa [hs, ht, eq_comm] using e
    exact ⟨q, rfl⟩
  · obtain rfl : tg' = tg.set r tg[x] := by simpa [hs, ht] using e
    by_cases hq : r = q
    · subst hq; exact ⟨x, by simp⟩
    · exact ⟨q, by simp [Fin.val_ne_of_ne hq]⟩

end change

/-- Settles O52: a step writes memory at most once, at the place of an access. -/
theorem stepKeepsCanonicalMemory : Obligations.StepKeepsCanonicalMemory := by
  unfold Obligations.StepKeepsCanonicalMemory
  intro s t hs h
  obtain ⟨i, pc', hc⟩ := step_change h
  exact hc.memInv hs

/-- Settles O53: what sets the flags sets an overflow trit other than 2. -/
theorem stepNeverSetsOverflowToTwo : Obligations.StepNeverSetsOverflowToTwo := by
  unfold Obligations.StepNeverSetsOverflowToTwo
  intro s t hs h
  obtain ⟨i, pc', hc⟩ := step_change h
  exact hc.vInv hs

/-- Settles O54: no meaning writes a parameter, and the one that writes a tag copies it. -/
theorem stepCreatesNoTagAndKeepsParameters : Obligations.StepCreatesNoTagAndKeepsParameters := by
  unfold Obligations.StepCreatesNoTagAndKeepsParameters
  intro s t h
  obtain ⟨i, pc', hc⟩ := step_change h
  exact ⟨hc.params, hc.tags_none, fun tg tg' hs ht q => hc.tag_of_register hs ht q⟩

/-! ## Reset -/

/-- Settles O55: the reset state is written out, and its memory lists nothing. -/
theorem resetIsTheNamedState : Obligations.ResetIsTheNamedState := by
  unfold Obligations.ResetIsTheNamedState
  exact ⟨by decide, rfl, rfl, rfl, fun p => rfl⟩

/-- Settles O56: nothing is listed in memory, no flag is set and there is no hole. -/
theorem resetMeetsTheInvariants : Obligations.ResetMeetsTheInvariants := by
  unfold Obligations.ResetMeetsTheInvariants
  refine ⟨⟨rfl, fun _ e he => ?_⟩, ?_, rfl⟩
  · cases he
  · change (0 : Trit) ≠ 2
    decide

end Sys2Proof.Machine
end

section
/-! PROOFS. Words as numerals (00_scope.md section 6, 44_shifts.md): the complement, the balanced
numeral, and the trits that a shift moves. -/

namespace Sys2Proof.Machine

/-! ## The trits of a word -/

theorem trit_val (w : Word) (i : Nat) : (trit w i).val = w.val / 3 ^ i % 3 := rfl

theorem three_pow_split {i : Nat} (hi : i < 9) : 3 ^ i * (3 * 3 ^ (8 - i)) = 19683 := by
  rw [← pow_succ', ← pow_add, show i + (8 - i + 1) = 9 by omega]
  norm_num

/-- Below trit 9 the reduction modulo 3^9 does not show. -/
theorem trit_ofInt (z : Int) {i : Nat} (hi : i < 9) :
    ((trit (Word.ofInt z) i).val : Int) = z / 3 ^ i % 3 := by
  have hsplit : (3 : Int) ^ i * (3 * 3 ^ (8 - i)) = 19683 := by exact_mod_cast three_pow_split hi
  have hz : z = z % 19683 + 3 ^ i * (3 * 3 ^ (8 - i) * (z / 19683)) := by
    rw [← mul_assoc, hsplit]; omega
  have hpos : (3 : Int) ^ i ≠ 0 := by positivity
  calc ((trit (Word.ofInt z) i).val : Int)
      = z % 19683 / 3 ^ i % 3 := by rw [trit_val]; push_cast; rw [ofInt_val]
    _ = (z % 19683 / 3 ^ i + 3 * (3 ^ (8 - i) * (z / 19683))) % 3 := by
        rw [Int.add_mul_emod_self_left]
    _ = z / 3 ^ i % 3 := by
        rw [← mul_assoc, ← Int.add_mul_ediv_left _ _ hpos, ← hz]

theorem trit_ofNat (n : Nat) {i : Nat} (hi : i < 9) :
    (trit (Word.ofNat n) i).val = n / 3 ^ i % 3 := by
  have hval := ofInt_val n
  have hword : Word.ofNat n = Word.ofInt n := Fin.ext (by rw [ofNat_val]; omega)
  have htrit := trit_ofInt (n : Int) hi
  rw [← hword] at htrit
  exact_mod_cast htrit

/-- The trits of a word are those of its signed value. -/
theorem trit_sv (w : Word) {i : Nat} (hi : i < 9) : ((trit w i).val : Int) = sv w / 3 ^ i % 3 := by
  rw [← trit_ofInt (sv w) hi, ofInt_sv]

/-! ## The complement -/

/-- R5: each trit is taken from 2. -/
theorem trit_cmp3 (w : Word) {i : Nat} (hi : i < 9) :
    (trit (cmp3 w) i).val = 2 - (trit w i).val := by
  have hsplit := three_pow_split hi
  have hlt : w.val < 3 ^ i * (3 * 3 ^ (8 - i)) := by rw [hsplit]; exact w.isLt
  have hdiv := Nat.mul_sub_div w.val (3 ^ i) (3 * 3 ^ (8 - i)) hlt
  have hquot : w.val / 3 ^ i < 3 * 3 ^ (8 - i) := Nat.div_lt_of_lt_mul hlt
  rw [hsplit, show 19683 - (w.val + 1) = 19682 - w.val by omega] at hdiv
  rw [trit_val, trit_val, cmp3_val, hdiv]
  omega

theorem sv_cmp3 {w : Word} (h : w.val ≠ 9841) : sv (cmp3 w) = - sv w - 1 := by
  have hlt := w.isLt
  unfold sv
  rw [cmp3_val]
  split_ifs <;> omega

/-- Settles O2: trit by trit, and then by the value 19682 - w of the complement. -/
theorem complementPlusOneNegates : Obligations.ComplementPlusOneNegates := by
  unfold Obligations.ComplementPlusOneNegates
  refine fun b => ⟨fun i hi => trit_cmp3 b hi, ?_, sv_cmp3, by decide⟩
  have hlt := b.isLt
  rw [Fin.val_add, cmp3_val, Fin.val_one]
  omega

/-! ## The balanced numeral -/

/-- Twice the sum of the balanced trits below `n`: each trit is one less than in the word. -/
theorem two_mul_balanced_sum (w : Word) (n : Nat) :
    2 * (List.range n).foldl (fun acc i => acc + (((trit w i).val : Int) - 1) * 3 ^ i) 0 =
      2 * (w.val % 3 ^ n : Nat) - (3 ^ n - 1) := by
  induction n with
  | zero => simp [Nat.mod_one]
  | succ n ih =>
    rw [List.range_succ, List.foldl_append, List.foldl_cons, List.foldl_nil, mul_add, ih,
      Nat.mod_pow_succ, trit_val]
    push_cast
    ring

theorem balanced_val (w : Word) : ((balanced w).val : Int) = sv w + 9841 := by
  have hlt := w.isLt
  rw [balanced, Fin.val_add, show ((9841 : Word).val) = 9841 from rfl]
  unfold sv
  split_ifs <;> omega

/-- Settles O3: the sum of the balanced trits is the word less the bias. -/
theorem balancedNumeralHasTheSignedValue : Obligations.BalancedNumeralHasTheSignedValue := by
  unfold Obligations.BalancedNumeralHasTheSignedValue
  intro w
  have hsum := two_mul_balanced_sum (balanced w) 9
  have hval := balanced_val w
  have hmod : (balanced w).val % 3 ^ 9 = (balanced w).val := Nat.mod_eq_of_lt (balanced w).isLt
  have hpow : (3 : Int) ^ 9 = 19683 := by norm_num
  rw [hmod, hpow] at hsum
  omega

/-! ## The shifts as movements of trits -/

/-- R121: the trits move up and zeros come in below. -/
theorem trit_slOp (d : Word) (n : Nat) {i : Nat} (hi : i < 9) :
    trit (slOp n d).1 i = if i < n then 0 else trit d (i - n) := by
  apply Fin.ext
  rw [slOp, trit_ofNat _ hi]
  split
  next hlow =>
    have hpow : 3 ^ n = 3 * 3 ^ (n - i - 1) * 3 ^ i := by
      rw [← pow_succ', ← pow_add]; congr 1; omega
    rw [hpow, ← mul_assoc, Nat.mul_div_cancel _ (by positivity), mul_left_comm]
    exact Nat.mul_mod_right _ _
  next hhigh =>
    have hpow : 3 ^ i = 3 ^ (i - n) * 3 ^ n := by rw [← pow_add]; congr 1; omega
    rw [hpow, Nat.mul_div_mul_right _ _ (by positivity), trit_val]

/-- R122: the trits move down and zeros come in above. -/
theorem trit_sruOp (d : Word) (n : Nat) {i : Nat} (hi : i < 9) :
    trit (sruOp n d).1 i = if i + n < 9 then trit d (i + n) else 0 := by
  apply Fin.ext
  rw [sruOp, trit_ofNat _ hi, Nat.div_div_eq_div_mul, ← pow_add, Nat.add_comm n i]
  split
  next => rfl
  next hout =>
    have hpow : 3 ^ 9 ≤ 3 ^ (i + n) := Nat.pow_le_pow_right (by omega) (by omega)
    rw [Nat.div_eq_of_lt (d.isLt.trans_le hpow)]
    rfl

/-- A shift of a signed value by nine trits or more leaves its sign. -/
theorem sv_ediv_of_ge (d : Word) {n : Nat} (hn : 9 ≤ n) :
    sv d / 3 ^ n = if 0 ≤ sv d then 0 else -1 := by
  have hrange := sv_range d
  have hpow : (3 : Int) ^ 9 ≤ 3 ^ n := pow_le_pow_right₀ (by omega) hn
  norm_num at hpow
  split
  next hpos => exact Int.ediv_eq_zero_of_lt hpos (by omega)
  next hneg => rw [Int.ediv_eq_iff_of_pos (by omega)]; omega

/-- R123: the trits move down and the sign comes in above. -/
theorem trit_srsOp (d : Word) (n : Nat) {i : Nat} (hi : i < 9) :
    trit (srsOp n d).1 i =
      if i + n < 9 then trit d (i + n) else if 0 ≤ sv d then 0 else 2 := by
  have htrit : ((trit (srsOp n d).1 i).val : Int) = sv d / 3 ^ (i + n) % 3 := by
    rw [srsOp, trit_ofInt _ hi, Int.ediv_ediv_of_nonneg (by positivity), ← pow_add,
      Nat.add_comm n i]
  apply Fin.ext
  split
  next hin => rw [← trit_sv d hin] at htrit; exact_mod_cast htrit
  next hout =>
    rw [sv_ediv_of_ge d (by omega)] at htrit
    split_ifs at htrit ⊢ <;> simp at htrit ⊢ <;> omega

/-- Settles O39: a trit of each shift's result is one of the word, or the fill. -/
theorem shiftsMoveTrits : Obligations.ShiftsMoveTrits := by
  unfold Obligations.ShiftsMoveTrits
  exact fun d n i _ _ hi => ⟨trit_slOp d n hi, trit_sruOp d n hi, trit_srsOp d n hi⟩

end Sys2Proof.Machine
end

section
/-! PROOFS. Storage (20_memory.md section 1): the canonical form, writes and reads through a
register, and the places that tags and addresses name. -/

namespace Sys2Proof.Machine

/-! ## Canonical memories -/

/-- Nothing is listed at a place below every entry. -/
theorem read_eq_none_of_lt {m : Memory} {p : Nat} (h : ∀ e ∈ m, p < e.1) : m.read p = none := by
  induction m with
  | nil => rfl
  | cons e m ih =>
    obtain ⟨q, w⟩ := e
    have hq : p < q := h (q, w) (List.mem_cons_self ..)
    rw [Memory.read, if_neg (by omega)]
    exact ih fun e he => h e (List.mem_cons_of_mem _ he)

theorem read_cons_self (p : Nat) (w : Word) (m : Memory) :
    Memory.read ((p, w) :: m) p = some w := by
  simp [Memory.read]

theorem read_cons_of_ne {p q : Nat} (w : Word) (m : Memory) (h : q ≠ p) :
    Memory.read ((q, w) :: m) p = m.read p := by
  simp [Memory.read, h]

/-- A canonical memory that lists a place has no head above it. -/
theorem head_le_of_read {p q : Nat} {w v : Word} {m : Memory}
    (hwf : Memory.wf ((q, w) :: m) = true) (h : Memory.read ((q, w) :: m) p = some v) : q ≤ p := by
  by_contra hlt
  have hnone : Memory.read ((q, w) :: m) p = none := by
    refine read_eq_none_of_lt fun e he => ?_
    rcases List.mem_cons.1 he with rfl | he
    · simpa using hlt
    · exact (not_le.1 hlt).trans (wf_head_lt hwf e he)
  simp [hnone] at h

/-- Settles O5: by induction, the heads being equal as each is the least place listed. -/
theorem canonicalMemoriesWithEqualReadsAreEqual :
    Obligations.CanonicalMemoriesWithEqualReadsAreEqual := by
  unfold Obligations.CanonicalMemoriesWithEqualReadsAreEqual
  intro m
  induction m with
  | nil =>
    intro n _ _ h
    cases n with
    | nil => rfl
    | cons f n => simpa [Memory.read] using h f.1
  | cons e m ih =>
    intro n hm hn h
    obtain ⟨p, w⟩ := e
    cases n with
    | nil => simpa [Memory.read] using h p
    | cons f n =>
      obtain ⟨q, u⟩ := f
      have hqp : q ≤ p := head_le_of_read hn ((h p).symm.trans (read_cons_self p w m))
      have hpq : p ≤ q := head_le_of_read hm ((h q).trans (read_cons_self q u n))
      obtain rfl : p = q := le_antisymm hpq hqp
      obtain rfl : w = u := by simpa [read_cons_self] using h p
      have htail : ∀ k, Memory.read m k = Memory.read n k := by
        intro k
        by_cases hk : p = k
        · rw [← hk, read_eq_none_of_lt (wf_head_lt hm), read_eq_none_of_lt (wf_head_lt hn)]
        · rw [← read_cons_of_ne w m hk, h k, read_cons_of_ne w n hk]
      rw [ih n (wf_tail hm) (wf_tail hn) htail]

/-! ## Writes and reads through a register -/

/-- Settles O4: the write places one word, and on the untagged machine the places are the
addresses. -/
theorem memoryWriteReplacesOneWord : Obligations.MemoryWriteReplacesOneWord := by
  unfold Obligations.MemoryWriteReplacesOneWord
  refine fun s i a v => ⟨fun hm => ?_, writeVia_eq_none.2⟩
  have hw := writeVia_mapped hm v
  refine ⟨_, hw, ?_, fun p hp => ?_, fun _ _ => rfl, rfl, ⟨rfl, rfl⟩, fun hnone j => ?_⟩
  · rw [readVia_after_write hw, if_pos rfl]
  · rw [cell_placeWord, if_neg hp.symm]
  · have hplace : ∀ b, s.place j b = s.place i a ↔ b = a := fun b => by
      rw [place_untagged hnone, place_untagged hnone, Fin.ext_iff]
    refine ⟨?_, fun b hb => ?_⟩
    · rw [readVia_after_write hw, if_pos ((hplace a).2 rfl)]
    · rw [readVia_after_write hw, if_neg (mt (hplace b).1 hb)]

/-! ## The places of a tagged machine -/

section tagged
variable {s : State} {tg : Vector Tag 9} {i : Reg} {a : Word}

theorem place_tagged (ht : s.tags = some tg) (i : Reg) (a : Word) :
    s.place i a = placeOf s.params tg[i] a := by
  simp [State.place, ht]

/-- The first row of the storage map for the tag and the address names the place. -/
theorem placeOf_listed {ps : Params} {t : Tag} {before after : List TagRow} {row : TagRow}
    (h : ps.places = before ++ row :: after) (hb : ∀ q ∈ before, q.tag ≠ t ∨ q.addr ≠ a)
    (ht : row.tag = t) (ha : row.addr = a) : placeOf ps t a = row.place := by
  have hfind : ps.places.find? (fun q => decide (q.tag = t ∧ q.addr = a)) = some row := by
    refine List.find?_eq_some_iff_append.2 ⟨by simp [ht, ha], before, after, h, fun q hq => ?_⟩
    rcases hb q hq with hne | hne <;> simp [hne]
  rw [placeOf, hfind]

/-- A pair with no row has a place of its own. -/
theorem placeOf_unlisted {ps : Params} {t : Tag} (h : ∀ q ∈ ps.places, q.tag ≠ t ∨ q.addr ≠ a) :
    placeOf ps t a = t * 19683 + a.val := by
  have hfind : ps.places.find? (fun q => decide (q.tag = t ∧ q.addr = a)) = none := by
    refine List.find?_eq_none.2 fun q hq => ?_
    rcases h q hq with hne | hne <;> simp [hne]
  rw [placeOf, hfind]

end tagged

/-- Settles O59: the lookup in the storage map, and the read after a write, place by place. -/
theorem storageMapNamesThePlace : Obligations.StorageMapNamesThePlace := by
  unfold Obligations.StorageMapNamesThePlace
  refine ⟨fun s i a h => place_untagged h i a, fun s tg i a ht => ?_, fun s t i j a b v h => ?_⟩
  · rw [place_tagged ht]
    exact ⟨fun before after row h hb => placeOf_listed h hb, placeOf_unlisted⟩
  · rw [readVia_after_write h]
    exact ⟨fun hp => if_pos hp, fun hp => if_neg hp⟩

/-- Settles O7: places of unlisted pairs with different tags lie in different blocks of 19683. -/
theorem tagsSeparateWords : Obligations.TagsSeparateWords := by
  unfold Obligations.TagsSeparateWords
  intro s t tg x y a b v ht hp hne hw
  have hplace : ∀ (j : Reg) (c : Word), s.place j c = tg[j] * 19683 + c.val := fun j c => by
    rw [place_tagged ht, placeOf_unlisted (by simp [hp])]
  have hsep : s.place y b ≠ s.place x a := by
    have ha := a.isLt
    have hb := b.isLt
    rw [hplace, hplace]
    rcases Nat.lt_or_gt_of_ne hne with hlt | hlt <;> omega
  exact ⟨by rw [readVia_after_write hw, if_neg hsep], by rw [readVia_after_write hw, if_pos rfl]⟩

end Sys2Proof.Machine
end

section
/-! PROOFS. The fetch and the step (40_addressing.md section 1, 60_exceptions.md section 1): the
instruction a step runs, by the format or by OPMAP, and the words and addresses on which it faults.
-/

namespace Sys2Proof

/-! ## The decoder on the words below the assigned opcodes -/

section opmap
variable {om before after : List OpmapRow} {A w d : Word} {row : OpmapRow}

/-- The first row that binds the word is found after any rows that do not. -/
theorem opmapRow_first (h : om = before ++ row :: after)
    (hb : ∀ q ∈ before, q.wellFormed = false ∨ q.word ≠ w ∨ ∃ B, q.addr = some B ∧ B ≠ A)
    (hwf : row.wellFormed = true) (hw : row.word = w) (ha : row.addr = none ∨ row.addr = some A) :
    opmapRow om A w = some row := by
  subst h
  induction before with
  | nil =>
    refine List.find?_cons_of_pos ?_
    rcases ha with ha | ha <;> simp [hwf, hw, ha]
  | cons q before ih =>
    rw [List.cons_append, opmapRow_skip (hb q (List.mem_cons_self ..))]
    exact ih fun q' hq' => hb q' (List.mem_cons_of_mem _ hq')

/-- A well-formed row stands for a word that the current format leaves unassigned. -/
theorem opField_lt_of_wellFormed (h : row.wellFormed = true) : opField row.word < 24 := by
  simp only [OpmapRow.wellFormed, Bool.and_eq_true, decide_eq_true_eq] at h
  exact h.1.1

theorem decode_of_opmapRow (hop : opField w < 24) (h : opmapRow om A w = some row) :
    decode om A w d = .ok row.term := by
  simp [decode, h, not_le.2 hop]

theorem instrLength_of_opmapRow (hop : opField w < 24) (h : opmapRow om A w = some row) :
    instrLength om A w = 2 ↔ row.words = .two := by
  rw [instrLength, if_neg (by omega), h]
  cases hwords : row.words <;> simp [hwords]

theorem decode_unassignedOpcode (hop : opField w < 24) (h : opmapRow om A w = none) :
    decode om A w d = .error .unassignedOpcode := by
  simp [decode, h, not_le.2 hop]

theorem instrLength_unassignedOpcode (hop : opField w < 24) (h : opmapRow om A w = none) :
    instrLength om A w = 1 := by
  simp [instrLength, h, not_le.2 hop]

end opmap

/-! ## The decoder's rejections -/

section reject
variable {om : List OpmapRow} {A w d : Word} {e : Reject}

/-- The four values of `m` that no mode has (R59). -/
def unassignedM (w : Word) : Prop := mField w = 7 ∨ mField w = 6 ∨ mField w = 1 ∨ mField w = 0

theorem modeOf_unassignedM (h : unassignedM w) : modeOf (mField w) d = .error .unassignedMode := by
  rcases h with h | h | h | h <;> rw [h] <;> rfl

theorem unassignedM_of_error (h : modeOf (mField w) d = .error e) :
    e = .unassignedMode ∧ unassignedM w := by
  obtain ⟨he, h8, h5, h4, h3, h2⟩ := modeOf_error h
  have hlt : mField w < 9 := Nat.mod_lt _ (by omega)
  exact ⟨he, by unfold unassignedM; omega⟩

theorem decode_unassignedMode (hop : opField w = 25 ∨ opField w = 26) (hm : unassignedM w) :
    decode om A w d = .error .unassignedMode := by
  rcases hop with hop | hop <;>
    simp [decode, decodeCurrent, hop, modeOf_unassignedM hm, Except.map]

theorem instrLength_unassignedMode (hop : opField w = 25 ∨ opField w = 26) (hm : unassignedM w) :
    instrLength om A w = 1 := by
  have h2 : mField w ≠ 2 := by unfold unassignedM at hm; omega
  rw [instrLength, if_pos (by omega), currentLength, if_neg fun h => h2 h.2]

theorem map_modeOf_eq_error {g : Mode → Instr} (h : (modeOf (mField w) d).map g = .error e) :
    e = .unassignedMode ∧ unassignedM w := by
  cases hm : modeOf (mField w) d with
  | ok mode => simp [hm, Except.map] at h
  | error e' =>
    obtain rfl : e' = e := by simpa [hm, Except.map] using h
    exact unassignedM_of_error hm

/-- The current format rejects an unassigned mode, and nothing else where the opcode is assigned. -/
theorem decodeCurrent_error (hop : 24 ≤ opField w) (h : decodeCurrent w d = .error e) :
    e = .unassignedMode ∧ (opField w = 25 ∨ opField w = 26) ∧ unassignedM w := by
  have hlt : opField w < 27 := Nat.div_lt_of_lt_mul w.isLt
  unfold decodeCurrent at h
  split at h
  next h26 => obtain ⟨he, hm⟩ := map_modeOf_eq_error h; exact ⟨he, .inr h26, hm⟩
  next h25 => obtain ⟨he, hm⟩ := map_modeOf_eq_error h; exact ⟨he, .inl h25, hm⟩
  next => cases h
  next h26 h25 h24 => simp only [imp_false] at h26 h25 h24; omega

/-- Every word that the decoder rejects, and why. -/
theorem decode_error (h : decode om A w d = .error e) :
    (e = .unassignedOpcode ∧ opField w < 24 ∧ opmapRow om A w = none) ∨
    (e = .unassignedMode ∧ (opField w = 25 ∨ opField w = 26) ∧ unassignedM w) := by
  unfold decode at h
  split at h
  next hop => exact .inr (decodeCurrent_error hop h)
  next hop =>
    split at h
    next => cases h
    next hnone => cases h; exact .inl ⟨rfl, by omega, hnone⟩

end reject

end Sys2Proof

namespace Sys2Proof.Machine

/-! ## The instruction that a step runs -/

/-- Settles O11: the fetch of one word, then the meaning. -/
theorem stepRunsOneWordInstruction : Obligations.StepRunsOneWordInstruction := by
  unfold Obligations.StepRunsOneWordInstruction
  intro s w i hr hl hd
  exact step_of_fetchInstr (fetchInstr_one hr (by omega) hd)

/-- Settles O12: the fetch of two words, then the meaning. -/
theorem stepRunsTwoWordInstruction : Obligations.StepRunsTwoWordInstruction := by
  unfold Obligations.StepRunsTwoWordInstruction
  intro s w d i hr hl hr2 hd
  exact step_of_fetchInstr (fetchInstr_two hr hl hr2 hd)

/-- Settles O13: the row found gives the length and the term. -/
theorem stepRunsTheOpmapTerm : Obligations.StepRunsTheOpmapTerm := by
  unfold Obligations.StepRunsTheOpmapTerm
  intro s row before rows hom hb hwf ha hr
  have hrow : opmapRow s.params.opmap s.pc row.word = some row :=
    opmapRow_first hom hb hwf rfl ha
  have hop := opField_lt_of_wellFormed hwf
  have hlen := instrLength_of_opmapRow hop hrow
  refine ⟨fun hone => ?_, fun htwo hm => ?_⟩
  · have hl : instrLength s.params.opmap s.pc row.word ≠ 2 := by simp [hlen, hone]
    exact step_of_fetchInstr (fetchInstr_one hr hl (decode_of_opmapRow hop hrow))
  · exact step_of_fetchInstr
      (fetchInstr_two hr (hlen.2 htwo) (readVia_mapped hm) (decode_of_opmapRow hop hrow))

/-! ## The faults of a fetch -/

section faults
variable {s : State} {w : Word} {f : Fault}

theorem step_of_fetchInstr_error (h : s.fetchInstr = .error f) : step s = .fault f := by
  simp [step, h]

/-- A first fetch outside MEM_MAP. -/
theorem fetchInstr_first_unmapped (h : s.mapped pcReg s.pc = false) :
    s.fetchInstr = .error (.unmappedAddress s.pc) := by
  rw [State.fetchInstr, fetch_eq_error.2 ⟨h, rfl⟩]

/-- A second fetch outside MEM_MAP. -/
theorem fetchInstr_second_unmapped (hr : s.readVia pcReg s.pc = some w)
    (hl : instrLength s.params.opmap s.pc w = 2) (h : s.mapped pcReg (s.pc + 1) = false) :
    s.fetchInstr = .error (.unmappedAddress (s.pc + 1)) := by
  have hsecond : (s.setReg pcReg (s.pc + 1)).fetch = .error (.unmappedAddress (s.pc + 1)) :=
    fetch_eq_error.2 ⟨by simpa using h, by simp⟩
  rw [State.fetchInstr, fetch_eq_ok.2 ⟨hr, rfl⟩]
  simp [hl, hsecond]

/-- A decoded word that is a fault is a rejected one. -/
theorem decodeOrFault_map_error {α : Type} {g : Instr → α} {A d : Word}
    (h : (decodeOrFault s A w d).map g = .error f) :
    ∃ e, decode s.params.opmap A w d = .error e ∧ f = rejectFault A w e := by
  rcases decodeOrFault_cases s A w d with ⟨i, -, hi⟩ | ⟨e, hd, he⟩
  · simp [hi, Except.map] at h
  · simp only [he, Except.map, Except.error.injEq] at h
    exact ⟨e, hd, h.symm⟩

/-- Everything that a failed fetch can be: an address outside MEM_MAP, or a rejected word. -/
theorem fetchInstr_error (h : s.fetchInstr = .error f) :
    (∃ a, s.mapped pcReg a = false) ∨
    ∃ w d e, s.readVia pcReg s.pc = some w ∧ decode s.params.opmap s.pc w d = .error e ∧
      f = rejectFault s.pc w e := by
  unfold State.fetchInstr at h
  cases hf : s.fetch with
  | error g => exact .inl ⟨s.pc, (fetch_eq_error.1 hf).1⟩
  | ok wt =>
    obtain ⟨w, s1⟩ := wt
    obtain ⟨hr, rfl⟩ := fetch_eq_ok.1 hf
    simp only [hf] at h
    split at h
    next =>
      cases hg : (s.setReg pcReg (s.pc + 1)).fetch with
      | error g => exact .inl ⟨s.pc + 1, by simpa using (fetch_eq_error.1 hg).1⟩
      | ok dt =>
        simp only [hg] at h
        obtain ⟨e, hd, he⟩ := decodeOrFault_map_error h
        exact .inr ⟨w, _, e, hr, hd, he⟩
    next =>
      obtain ⟨e, hd, he⟩ := decodeOrFault_map_error h
      exact .inr ⟨w, _, e, hr, hd, he⟩

end faults

/-- Settles O14: the word takes one fetch and is rejected for its opcode. -/
theorem unassignedOpcodeFaults : Obligations.UnassignedOpcodeFaults := by
  unfold Obligations.UnassignedOpcodeFaults
  intro s w hr hop hrow
  have hl := instrLength_unassignedOpcode hop hrow
  exact step_of_fetchInstr_error
    (fetchInstr_reject hr (by omega) (decode_unassignedOpcode hop hrow))

/-- Settles O15: the word takes one fetch and is rejected for its mode. -/
theorem unassignedModeFaults : Obligations.UnassignedModeFaults := by
  unfold Obligations.UnassignedModeFaults
  intro s w hr hop hm
  have hl := instrLength_unassignedMode (om := s.params.opmap) (A := s.pc) hop hm
  exact step_of_fetchInstr_error (fetchInstr_reject hr (by omega) (decode_unassignedMode hop hm))

/-- Settles O16: each of the two fetches fails on its own address. -/
theorem unmappedFetchFaults : Obligations.UnmappedFetchFaults := by
  unfold Obligations.UnmappedFetchFaults
  exact fun s => ⟨fun h => step_of_fetchInstr_error (fetchInstr_first_unmapped h),
    fun w hr hl h => step_of_fetchInstr_error (fetchInstr_second_unmapped hr hl h)⟩

end Sys2Proof.Machine
end

section
/-! PROOFS. How an instruction ends (42_legacy_operands.md section 2, 60_exceptions.md section 1):
it is refused exactly where it is no term, and stops otherwise only outside MEM_MAP; by what name
it is refused; and how a run ends (70_reset_and_hazards.md section 3). -/

namespace Sys2Proof.Machine

/-! ## The three ends of an instruction -/

/-- The outcome `o` from `s` of what is a term exactly when `ok`: refused where it is none, else a
next state, or the fault of an address outside MEM_MAP. -/
def endsAs (ok : Bool) (s : State) (o : Host.Outcome State Fault Refusal) : Prop :=
  (ok = false ∧ ∃ why, o = .refused why) ∨
  (ok = true ∧ ∃ r a, s.mapped r a = false ∧ o = .fault (.unmappedAddress a)) ∨
  (ok = true ∧ ∃ t, o = .next t)

section ends
variable {s : State} {ok : Bool} {o : Host.Outcome State Fault Refusal}

theorem endsAs_next (t : State) : endsAs true s (.next t) := .inr (.inr ⟨rfl, t, rfl⟩)

theorem endsAs_refused_iff (h : endsAs ok s o) : (∃ why, o = .refused why) ↔ ok = false := by
  rcases h with ⟨hok, why, rfl⟩ | ⟨hok, r, a, -, rfl⟩ | ⟨hok, t, rfl⟩ <;> simp [hok]

theorem endsAs_fault {f : Fault} (h : endsAs ok s (.fault f)) : ∃ r a, s.mapped r a = false := by
  rcases h with ⟨-, why, e⟩ | ⟨-, r, a, hm, -⟩ | ⟨-, t, e⟩
  · cases e
  · exact ⟨r, a, hm⟩
  · cases e

theorem endsAs_allRam (hs : s.allRam) (h : endsAs true s o) : ∃ t, o = .next t := by
  rcases h with ⟨hok, -⟩ | ⟨-, r, a, hm, -⟩ | ⟨-, ht⟩
  · cases hok
  · simp [mapped_of_no_holes hs] at hm
  · exact ht

end ends

theorem runData_ends (f : Word → Word → Word × CC) (a : Suffix) (src dst : Operand) (s : State) :
    endsAs (dataOk s.params.legacyConst a src dst) s (runData f a src dst s) := by
  rcases runData_cases f a src dst s with hr | ⟨hok, r, -, hm, e⟩ | ⟨hok, v, d, -, -, e⟩
  · exact .inl hr
  · exact .inr (.inl ⟨hok, r, _, hm, e⟩)
  · exact .inr (.inr ⟨hok, _, e⟩)

theorem runCarry_ends (f : Word → Word → Word × CC) (a : Suffix) (src dst : Operand) (s : State) :
    endsAs (carryOk s.params.legacyConst a src dst) s (runCarry f a src dst s) := by
  rw [runCarry_eq]
  cases hsrc : src.isReg with
  | true => rw [carryOk, hsrc, Bool.true_and]; exact runData_ends f a src dst s
  | false => exact .inl ⟨by simp [carryOk, hsrc], _, rfl⟩

theorem runShift_ends (f : Word → Word × CC) (a : Suffix) (dst : Operand) (s : State) :
    endsAs (shiftOk s.params.legacyConst a dst) s (runShift f a dst s) := by
  rcases runShift_cases f a dst s with hr | ⟨hok, r, -, hm, e⟩ | ⟨hok, d, -, e⟩
  · exact .inl hr
  · exact .inr (.inl ⟨hok, r, _, hm, e⟩)
  · exact .inr (.inr ⟨hok, _, e⟩)

theorem execStore_ends (r : Reg) (m : Mode) (x : Reg) (s : State) :
    endsAs true s (execStore r m x s) := by
  rcases execStore_cases r m x s with ⟨-, e⟩ | ⟨a, -, -, e⟩ | ⟨a, -, hm, e⟩ <;> rw [e]
  · exact endsAs_next _
  · exact endsAs_next _
  · exact .inr (.inl ⟨rfl, x, a, hm, rfl⟩)

theorem execLoad_ends (r : Reg) (m : Mode) (x : Reg) (s : State) :
    endsAs true s (execLoad r m x s) := by
  rcases execLoad_cases r m x s with ⟨-, e⟩ | ⟨a, -, -, e⟩ | ⟨a, -, hm, e⟩ <;> rw [e]
  · exact endsAs_next _
  · exact endsAs_next _
  · exact .inr (.inl ⟨rfl, x, a, hm, rfl⟩)

/-- How each instruction ends. -/
theorem exec_ends (i : Instr) (s : State) :
    endsAs (i.wellFormed s.params.legacyConst) s (exec i s) := by
  cases i with
  | store r m x => exact execStore_ends r m x s
  | load r m x => exact execLoad_ends r m x s
  | add a src dst => exact runData_ends _ a src dst s
  | sub a src dst => exact runData_ends _ a src dst s
  | addc a src dst => exact runCarry_ends _ a src dst s
  | subb a src dst => exact runCarry_ends _ a src dst s
  | sl a n dst => exact runShift_ends _ a dst s
  | sru a n dst => exact runShift_ends _ a dst s
  | srs a n dst => exact runShift_ends _ a dst s
  | _ => exact endsAs_next _

/-- Settles O48: the three ends exclude one another, and the refusals are the non-terms. -/
theorem refusedExactlyNonTerms : Obligations.RefusedExactlyNonTerms := by
  unfold Obligations.RefusedExactlyNonTerms
  exact fun i s => endsAs_refused_iff (exec_ends i s)

/-- Settles O50: with no hole a term can only go on. -/
theorem everyTermRunsOnAllRam : Obligations.EveryTermRunsOnAllRam := by
  unfold Obligations.EveryTermRunsOnAllRam
  intro i s hram hwf
  exact endsAs_allRam hram (hwf ▸ exec_ends i s)

/-- On a machine without holes a step that faults has fetched a word that is rejected. -/
theorem allRam_fault_is_reject {s : State} {f : Fault} (hram : s.allRam) (h : step s = .fault f) :
    ∃ w d e, s.readVia pcReg s.pc = some w ∧ decode s.params.opmap s.pc w d = .error e ∧
      f = rejectFault s.pc w e := by
  cases hf : s.fetchInstr with
  | error g =>
    obtain rfl : g = f := by simpa [step_of_fetchInstr_error hf] using h
    rcases fetchInstr_error hf with ⟨a, hm⟩ | hreject
    · simp [mapped_of_no_holes hram] at hm
    · exact hreject
  | ok iu =>
    obtain ⟨i, u⟩ := iu
    have hu : u.params = s.params := by
      obtain ⟨w, -, ⟨-, -, rfl⟩ | ⟨-, d, -, -, rfl⟩⟩ := fetchInstr_ok hf <;> rfl
    have hends := exec_ends i u
    rw [← step_of_fetchInstr hf, h] at hends
    obtain ⟨r, a, hm⟩ := endsAs_fault hends
    rw [mapped_of_no_holes (hu ▸ hram)] at hm
    cases hm

/-- Settles O51: by why the decoder rejects a word. -/
theorem allRamFaultsOnlyOnUnassignedWords : Obligations.AllRamFaultsOnlyOnUnassignedWords := by
  unfold Obligations.AllRamFaultsOnlyOnUnassignedWords
  intro s f hram h
  obtain ⟨w, d, e, hr, hd, rfl⟩ := allRam_fault_is_reject hram h
  refine ⟨w, hr, ?_⟩
  rcases decode_error hd with ⟨rfl, hop, hrow⟩ | ⟨rfl, hop, hm⟩
  · exact .inl ⟨rfl, hop, hrow⟩
  · exact .inr ⟨rfl, hop, hm⟩

/-! ## The names of the refusals -/

section refusals
variable {a : Suffix} {src dst : Operand} {s : State} {why : Refusal} {lc : LegacyConst}

theorem runData_refused (f : Word → Word → Word × CC)
    (h : dataRefusal s.params.legacyConst a src dst = some why) :
    runData f a src dst s = .refused why := by
  rw [runData, h]

/-- A refusal of a data term with a register source is one of the carry term. -/
theorem runCarry_refused (f : Word → Word → Word × CC) (hsrc : src.isReg = true)
    (h : dataRefusal s.params.legacyConst a src dst = some why) :
    runCarry f a src dst s = .refused why := by
  rw [runCarry_eq, if_pos hsrc, runData_refused f h]

theorem runCarry_sourceNotRegister (f : Word → Word → Word × CC) (hsrc : src.isReg = false) :
    runCarry f a src dst s = .refused .sourceNotRegister := by
  rw [runCarry_eq, if_neg (by simp [hsrc])]

/-- What two data terms and two carry terms with this reason for refusal answer. -/
theorem data_terms_refused (h : dataRefusal s.params.legacyConst a src dst = some why) :
    exec (.add a src dst) s = .refused why ∧ exec (.sub a src dst) s = .refused why ∧
      (src.isReg = true → exec (.addc a src dst) s = .refused why ∧
        exec (.subb a src dst) s = .refused why) :=
  ⟨runData_refused _ h, runData_refused _ h,
    fun hsrc => ⟨runCarry_refused _ hsrc h, runCarry_refused _ hsrc h⟩⟩

theorem dataRefusal_twoStars (ha : a ≠ .plain) (p q : Reg) :
    dataRefusal lc a (.star p) (.star q) = some .suffixWithTwoStars := by
  cases a with
  | plain => exact absurd rfl ha
  | inc => rfl
  | dec => rfl

theorem dataRefusal_withoutStar (ha : a ≠ .plain) (hsrc : src.isStar = false)
    (hdst : dst.isStar = false) : dataRefusal lc a src dst = some .suffixWithoutStar := by
  cases a with
  | plain => exact absurd rfl ha
  | inc => simp [dataRefusal, suffixRefusal, hsrc, hdst]
  | dec => simp [dataRefusal, suffixRefusal, hsrc, hdst]

/-- With no suffix, or one starred operand, the suffix is no reason for refusal. -/
theorem suffixRefusal_eq_none (h : a = .plain ∨ src.isStar ≠ dst.isStar) :
    suffixRefusal a src dst = none := by
  rcases h with rfl | h
  · rfl
  · have hd : dst.isStar = !src.isStar := Bool.eq_not_of_ne h.symm
    cases a with
    | plain => rfl
    | inc => simp [suffixRefusal, hd]
    | dec => simp [suffixRefusal, hd]

theorem dataRefusal_constant {k : Word} (h : a = .plain ∨ src.isStar ≠ dst.isStar)
    (hk : src = .const k ∨ dst = .const k) (hout : lc.allows k = false) :
    dataRefusal lc a src dst = some .constantOutsideSet := by
  rw [dataRefusal, suffixRefusal_eq_none h]
  rcases hk with rfl | rfl <;> simp [Operand.constOk, hout]

theorem runShift_suffix (f : Word → Word × CC) (ha : a ≠ .plain) :
    runShift f a dst s = .refused .suffixOnShift := by
  rw [runShift, if_neg ha]

theorem runShift_constant (f : Word → Word × CC) {k : Word}
    (hout : s.params.legacyConst.allows k = false) :
    runShift f .plain (.const k) s = .refused .constantOutsideSet := by
  simp [runShift, Operand.constOk, hout]

end refusals

/-- Settles O49: each name by the first reason that applies. -/
theorem nonTermsAreRefusedByName : Obligations.NonTermsAreRefusedByName := by
  unfold Obligations.NonTermsAreRefusedByName
  refine ⟨fun s a src dst hsrc =>
      ⟨runCarry_sourceNotRegister _ hsrc, runCarry_sourceNotRegister _ hsrc⟩,
    fun s a n dst ha => ⟨runShift_suffix _ ha, runShift_suffix _ ha, runShift_suffix _ ha⟩,
    fun s a p q ha => ?_,
    fun s a src dst ha hsrc hdst => data_terms_refused (dataRefusal_withoutStar ha hsrc hdst),
    fun s a src dst k h hk hout => data_terms_refused (dataRefusal_constant h hk hout),
    fun s n k hout =>
      ⟨runShift_constant _ hout, runShift_constant _ hout, runShift_constant _ hout⟩⟩
  obtain ⟨hadd, hsub, -⟩ := data_terms_refused (s := s) (dataRefusal_twoStars ha p q)
  exact ⟨hadd, hsub⟩

/-! ## The end of a run -/

/-- After `k` steps without a stop the run is in `t`, whose pc is HALT_PC for the first time. -/
def haltsFirstAfter (k : Nat) (s t : State) : Prop :=
  Host.Core.run Sys2Proof.core k s = .next t ∧ t.params.haltPc = some t.pc ∧
    ∀ j, j < k → ∃ u : State, Host.Core.run Sys2Proof.core j s = .next u ∧
      u.params.haltPc ≠ some u.pc

theorem run_zero (s : State) : Host.Core.run Sys2Proof.core 0 s = .next s := rfl

theorem haltsFirstAfter_zero {s t : State} :
    haltsFirstAfter 0 s t ↔ s = t ∧ t.params.haltPc = some t.pc := by
  constructor
  · rintro ⟨hrun, hhalt, -⟩
    exact ⟨Host.Outcome.next.inj hrun, hhalt⟩
  · rintro ⟨rfl, hhalt⟩
    exact ⟨run_zero s, hhalt, fun j hj => absurd hj (Nat.not_lt_zero j)⟩

/-- A later halt is a halt of the state that the first step answers. -/
theorem haltsFirstAfter_succ {k : Nat} {s t : State} :
    haltsFirstAfter (k + 1) s t ↔
      s.params.haltPc ≠ some s.pc ∧ ∃ u, step s = .next u ∧ haltsFirstAfter k u t := by
  constructor
  · rintro ⟨hrun, hhalt, hbefore⟩
    obtain ⟨s', hs', hne⟩ := hbefore 0 (by omega)
    obtain rfl : s = s' := Host.Outcome.next.inj hs'
    refine ⟨hne, ?_⟩
    cases hstep : step s with
    | fault f => simp [run_fault hstep] at hrun
    | refused r => simp [run_refused hstep] at hrun
    | next u =>
      refine ⟨u, rfl, (run_next hstep k).symm.trans hrun, hhalt, fun j hj => ?_⟩
      rw [← run_next hstep]
      exact hbefore (j + 1) (by omega)
  · rintro ⟨hne, u, hstep, hrun, hhalt, hbefore⟩
    refine ⟨(run_next hstep k).trans hrun, hhalt, fun j hj => ?_⟩
    cases j with
    | zero => exact ⟨s, run_zero s, hne⟩
    | succ j => rw [run_next hstep]; exact hbefore j (by omega)

theorem runToHalt_complete_iff (n : Nat) (s t : State) :
    runToHalt n s = .complete t ↔ ∃ k, k ≤ n ∧ haltsFirstAfter k s t := by
  induction n generalizing s with
  | zero =>
    simp only [Nat.le_zero, exists_eq_left, haltsFirstAfter_zero]
    by_cases hs : s.params.haltPc = some s.pc
    · rw [runToHalt_of_halt hs, RunEnd.complete.injEq]
      exact ⟨fun e => ⟨e, e ▸ hs⟩, fun h => h.1⟩
    · rw [runToHalt_zero hs]
      exact ⟨fun e => (by cases e), fun ⟨e, h⟩ => absurd (e ▸ h) hs⟩
  | succ n ih =>
    by_cases hs : s.params.haltPc = some s.pc
    · rw [runToHalt_of_halt hs, RunEnd.complete.injEq]
      constructor
      · rintro rfl
        exact ⟨0, by omega, haltsFirstAfter_zero.2 ⟨rfl, hs⟩⟩
      · rintro ⟨k, -, hk⟩
        cases k with
        | zero => exact (haltsFirstAfter_zero.1 hk).1
        | succ k => exact absurd hs (haltsFirstAfter_succ.1 hk).1
    · rw [runToHalt_succ hs]
      constructor
      · intro h
        cases hstep : step s with
        | fault f => simp [hstep] at h
        | refused r => simp [hstep] at h
        | next u =>
          simp only [hstep] at h
          obtain ⟨k, hk, hhalt⟩ := (ih u).1 h
          exact ⟨k + 1, by omega, haltsFirstAfter_succ.2 ⟨hs, u, hstep, hhalt⟩⟩
      · rintro ⟨k, hk, hhalt⟩
        cases k with
        | zero =>
          obtain ⟨rfl, hs'⟩ := haltsFirstAfter_zero.1 hhalt
          exact absurd hs' hs
        | succ k =>
          obtain ⟨-, u, hstep, hu⟩ := haltsFirstAfter_succ.1 hhalt
          rw [hstep]
          exact (ih u).2 ⟨k, by omega, hu⟩

/-- Settles O57: by induction on the fuel, a step at a time. -/
theorem runEndsFirstAtHaltPc : Obligations.RunEndsFirstAtHaltPc := by
  unfold Obligations.RunEndsFirstAtHaltPc
  exact runToHalt_complete_iff

end Sys2Proof.Machine
end

section
/-! PROOFS. `store` and `load` (41_data_transfer.md, 40_addressing.md): what each mode leaves, the
forms that rest on the order of the steps, the stack, and the assembled `loadi`. -/

namespace Sys2Proof.Machine

/-! ## The meanings, mode by mode -/

section meanings
variable {s : State} {r x : Reg} {m : Mode} {a after : Word}

theorem exec_store_register (r x : Reg) (s : State) :
    exec (.store r .register x) s = .next (s.setReg x (s.reg r)) := rfl

theorem exec_load_register (r x : Reg) (s : State) :
    exec (.load r .register x) s =
      .next (((s.copyTag r x).setReg r (s.reg x)).setCC (loadCC (s.reg x))) := rfl

theorem exec_store_mapped (ha : modeAddress m (s.reg x) = some a) (hm : s.mapped x a = true) :
    exec (.store r m x) s = .next ((modeModify m x s).placeWord (s.place x a) (s.reg r)) := by
  have hm' : (modeModify m x s).mapped x a = true := by simpa using hm
  simp [exec, execStore, ha, writeVia_mapped hm']

theorem exec_store_unmapped (ha : modeAddress m (s.reg x) = some a) (hm : s.mapped x a = false) :
    exec (.store r m x) s = .fault (.unmappedAddress a) := by
  have hm' : (modeModify m x s).mapped x a = false := by simpa using hm
  simp [exec, execStore, ha, writeVia_eq_none.2 hm']

theorem exec_load_mapped (ha : modeAddress m (s.reg x) = some a) (hm : s.mapped x a = true) :
    exec (.load r m x) s = .next (((modeModify m x s).setReg r (s.cell (s.place x a))).setCC
      (loadCC (s.cell (s.place x a)))) := by
  have hm' : (modeModify m x s).mapped x a = true := by simpa using hm
  simp [exec, execLoad, ha, readVia_mapped hm']

theorem exec_load_unmapped (ha : modeAddress m (s.reg x) = some a) (hm : s.mapped x a = false) :
    exec (.load r m x) s = .fault (.unmappedAddress a) := by
  have hm' : (modeModify m x s).mapped x a = false := by simpa using hm
  simp [exec, execLoad, ha, readVia_eq_none.2 hm']

/-- A store in a memory mode writes `x[r]` as it stood; `x[x]` is what the mode leaves. -/
theorem storesAt_exec (r : Reg) (ha : modeAddress m (s.reg x) = some a)
    (hm : s.mapped x a = true) (hafter : (modeModify m x s).reg x = after) :
    storesAt (exec (.store r m x) s) s r x a after := by
  refine ⟨_, exec_store_mapped ha hm, by simp [cell_placeWord], fun p hp => ?_, hafter,
    fun i hi => ?_, by simp, by simp, by simp⟩
  · simp [cell_placeWord, hp.symm]
  · rw [placeWord_reg, modeModify_reg_ne m x s (by simpa using hi)]

/-- A load in a memory mode reads the word there, which wins over what the mode leaves in `x`. -/
theorem loadsAt_exec (r : Reg) (ha : modeAddress m (s.reg x) = some a)
    (hm : s.mapped x a = true) (hafter : (modeModify m x s).reg x = after) :
    loadsAt (exec (.load r m x) s) s r x a after := by
  refine ⟨_, exec_load_mapped ha hm, by simp, fun hx => ?_, fun i hi => ?_, rfl, rfl, rfl,
    by simp [fixedSame], fun p => by simp⟩
  · rw [setCC_reg, reg_setReg_ne _ _ hx.symm, hafter]
  · simp only [List.mem_cons, List.not_mem_nil, or_false, not_or] at hi
    rw [setCC_reg, reg_setReg_ne _ _ (Ne.symm hi.1), modeModify_reg_ne m x s hi.2]

theorem modeModify_autoInc (x : Reg) (s : State) :
    (modeModify .autoInc x s).reg x = s.reg x + 1 := by
  simp [modeModify]

theorem modeModify_autoDec (x : Reg) (s : State) :
    (modeModify .autoDec x s).reg x = s.reg x - 1 := by
  simp [modeModify]

theorem storesAt_autoInc (r : Reg) (h : s.mapped x (s.reg x) = true) :
    storesAt (exec (.store r .autoInc x) s) s r x (s.reg x) (s.reg x + 1) :=
  storesAt_exec r rfl h (modeModify_autoInc x s)

theorem storesAt_autoDec (r : Reg) (h : s.mapped x (s.reg x - 1) = true) :
    storesAt (exec (.store r .autoDec x) s) s r x (s.reg x - 1) (s.reg x - 1) :=
  storesAt_exec r rfl h (modeModify_autoDec x s)

theorem loadsAt_autoInc (r : Reg) (h : s.mapped x (s.reg x) = true) :
    loadsAt (exec (.load r .autoInc x) s) s r x (s.reg x) (s.reg x + 1) :=
  loadsAt_exec r rfl h (modeModify_autoInc x s)

theorem loadsAt_autoDec (r : Reg) (h : s.mapped x (s.reg x - 1) = true) :
    loadsAt (exec (.load r .autoDec x) s) s r x (s.reg x - 1) (s.reg x - 1) :=
  loadsAt_exec r rfl h (modeModify_autoDec x s)

end meanings

/-- Settles O19: register mode writes one register. -/
theorem storeRegisterModeCopiesTheRegister : Obligations.StoreRegisterModeCopiesTheRegister := by
  unfold Obligations.StoreRegisterModeCopiesTheRegister
  refine fun s r x => ⟨_, exec_store_register r x s, by simp, fun i hi => ?_, rfl, ⟨rfl, rfl⟩,
    fun _ => rfl⟩
  exact reg_setReg_ne s _ (by simpa [eq_comm] using hi)

/-- Settles O20: the address and the modification of each mode. -/
theorem storeMemoryModesStoreTheRegister : Obligations.StoreMemoryModesStoreTheRegister := by
  unfold Obligations.StoreMemoryModesStoreTheRegister
  exact fun s r x => ⟨fun h => storesAt_exec r rfl h rfl, storesAt_autoInc r, storesAt_autoDec r,
    fun d h => storesAt_exec r rfl h rfl⟩

/-- Settles O22: the address and the modification of each mode. -/
theorem loadMemoryModesLoadTheWord : Obligations.LoadMemoryModesLoadTheWord := by
  unfold Obligations.LoadMemoryModesLoadTheWord
  exact fun s r x => ⟨fun h => loadsAt_exec r rfl h rfl, loadsAt_autoInc r, loadsAt_autoDec r,
    fun d h => loadsAt_exec r rfl h rfl⟩

/-- Settles O21: register mode copies one register and, on a tagged machine, its tag. -/
theorem loadRegisterModeCopiesRegisterAndTag :
    Obligations.LoadRegisterModeCopiesRegisterAndTag := by
  unfold Obligations.LoadRegisterModeCopiesRegisterAndTag
  refine fun s r x => ⟨_, exec_load_register r x s, by simp, ?_, rfl, rfl, rfl, rfl, fun _ => rfl,
    fun ht => by simp [ht], fun tg ht => ⟨tg.set r tg[x], by simp [ht], by simp, fun i hi => ?_⟩⟩
  · exact regsSameBut_setReg_setCC (s.copyTag r x) r _ _
  · simp [Fin.val_ne_of_ne hi.symm]

/-- Settles O6: the fetch reads the place that the store wrote, whichever register named it. -/
theorem fetchSeesTheStoredWord : Obligations.FetchSeesTheStoredWord := by
  unfold Obligations.FetchSeesTheStoredWord
  intro s r x hx hplace hm
  have hstore : exec (.store r .indirect x) s = .next (s.placeWord (s.place x s.pc) (s.reg r)) :=
    exec_store_mapped (congrArg some hx) hm
  have hmapped : s.mapped pcReg s.pc = true := by rw [State.mapped, ← hplace]; exact hm
  refine ⟨_, _, hstore, fetch_eq_ok.2 ⟨?_, rfl⟩, by simp⟩
  rw [placeWord_pc, readVia_eq_some]
  exact ⟨by simpa using hmapped, by simp [cell_placeWord, hplace]⟩

/-! ## A step at the word of a `store` or a `load` -/

section steps
variable {s : State} {op : Nat} {r x : Reg} {m : Mode} {d : Word}

/-- The step runs the instruction of the fields with the pc past its one word. -/
theorem step_transfer_one (hop : op = 26 ∨ op = 25) (hm : ∀ d, m ≠ .indexed d)
    (h : s.readVia pcReg s.pc = some (wordOfFields op r (m.field * 9 + x.val))) :
    step s = exec (if op = 26 then .store r m x else .load r m x) (s.setReg pcReg (s.pc + 1)) := by
  obtain ⟨hd, hl⟩ := decode_transfer s.params.opmap s.pc hop r x m 0 fun d e => absurd e (hm d)
  rw [if_neg (one_word_of_not_indexed hm).1] at hl
  exact step_of_fetchInstr (fetchInstr_one h (by omega) hd)

/-- In indexed mode the step takes the displacement too, with the pc past both words. -/
theorem step_transfer_two (hop : op = 26 ∨ op = 25)
    (h : s.readVia pcReg s.pc = some (wordOfFields op r (2 * 9 + x.val)))
    (h2 : s.readVia pcReg (s.pc + 1) = some d) :
    step s = exec (if op = 26 then .store r (.indexed d) x else .load r (.indexed d) x)
      (s.setReg pcReg (s.pc + 1 + 1)) := by
  obtain ⟨hd, hl⟩ := decode_transfer s.params.opmap s.pc hop r x (.indexed d) d (by simp)
  exact step_of_fetchInstr (fetchInstr_two h hl h2 hd)

/-- The step at a register-mode `store r,x`. -/
theorem step_store_register (h : s.readVia pcReg s.pc = some (wordOfFields 26 r (8 * 9 + x.val))) :
    step s = .next ((s.setReg pcReg (s.pc + 1)).setReg x ((s.setReg pcReg (s.pc + 1)).reg r)) :=
  step_transfer_one (m := .register) (.inl rfl) (by simp) h

end steps

/-- Settles O18: a register written with itself is as it was. -/
theorem noOpWordChangesOnlyThePc : Obligations.NoOpWordChangesOnlyThePc := by
  unfold Obligations.NoOpWordChangesOnlyThePc
  have hnop : ∀ (s : State) (r : Reg),
      s.readVia pcReg s.pc = some (wordOfFields 26 r (8 * 9 + r.val)) →
      step s = .next (s.setReg pcReg (s.pc + 1)) := fun s r h => by
    rw [step_store_register h, setReg_reg_self]
  refine ⟨fun s h => hnop s pcReg h, hnop, fun s r => ⟨_, exec_load_register r r s, fun i _ => ?_,
    rfl, rfl, rfl, ⟨?_, rfl⟩, fun _ => rfl⟩⟩
  · rw [setCC_reg, ← copyTag_reg s r r r, setReg_reg_self, copyTag_reg]
  · cases ht : s.tags <;> simp [ht]

/-- Settles O17: the step, and the modified register at each end. -/
theorem addressArithmeticWraps : Obligations.AddressArithmeticWraps := by
  unfold Obligations.AddressArithmeticWraps
  refine ⟨fun s w i hpc hr hl hd => ?_, fun s r x hm hx => ?_, fun s r x hm hx => ?_⟩
  · rw [← hpc] at hr hl hd
    rw [step_of_fetchInstr (fetchInstr_one hr (by omega) hd), hpc]
    rfl
  · have hstore := storesAt_autoInc (s := s) (x := x) r (by rw [hx]; exact hm)
    rw [hx] at hstore
    exact hstore
  · have hstore := storesAt_autoDec (s := s) (x := x) r (by rw [hx]; exact hm)
    rw [hx] at hstore
    exact hstore

/-! ## The forms that rest on the order of the steps -/

/-- Settles O25: each form is one of the modes, from the state with the pc past its words. -/
theorem stepOrderDecidesTheseForms : Obligations.StepOrderDecidesTheseForms := by
  unfold Obligations.StepOrderDecidesTheseForms
  refine ⟨fun s r hm => ?_, fun s r hm => ?_, fun s r hm => ?_, fun s x d hx h h2 hm => ?_,
    fun s r d hr h h2 hm => ?_, fun s r d h h2 hm => ?_, fun s r hr h hm => ?_⟩
  · obtain ⟨t, he, hreg, -⟩ := loadsAt_autoInc r hm
    exact ⟨t, he, hreg⟩
  · obtain ⟨t, he, hcell, -, hreg, -⟩ := storesAt_autoInc r hm
    exact ⟨t, he, hcell, hreg⟩
  · obtain ⟨t, he, hcell, -, hreg, -⟩ := storesAt_autoDec r hm
    exact ⟨t, he, hcell, hreg⟩
  · have hreg : (s.setReg pcReg (s.pc + 1 + 1)).reg x = s.reg x := reg_setReg_ne s _ hx.symm
    have hmap : (s.setReg pcReg (s.pc + 1 + 1)).mapped x (s.reg x + d) = true := by simpa using hm
    rw [step_transfer_two (.inl rfl) h h2]
    obtain ⟨t, he, hcell, -⟩ := storesAt_exec (m := .indexed d) pcReg
      (congrArg some (by rw [hreg])) hmap rfl
    exact ⟨t, he, by simpa using hcell⟩
  · rw [step_transfer_two (x := pcReg) (.inl rfl) h h2]
    obtain ⟨t, he, hcell, -⟩ := storesAt_exec (s := s.setReg pcReg (s.pc + 1 + 1)) (x := pcReg)
      (m := .indexed d) (a := s.pc + 1 + 1 + d) r (by simp [modeAddress]) (by simpa using hm) rfl
    exact ⟨t, he, by simpa [reg_setReg_ne s _ hr.symm] using hcell⟩
  · rw [step_transfer_two (x := pcReg) (.inr rfl) h h2]
    obtain ⟨t, he, hreg, -⟩ := loadsAt_exec (s := s.setReg pcReg (s.pc + 1 + 1)) (x := pcReg)
      (m := .indexed d) (a := s.pc + 1 + 1 + d) r (by simp [modeAddress]) (by simpa using hm) rfl
    exact ⟨t, he, by simpa using hreg⟩
  · rw [step_transfer_one (m := .autoInc) (x := pcReg) (.inl rfl) (by simp) h]
    obtain ⟨t, he, hcell, -, hpc, -⟩ := storesAt_autoInc (s := s.setReg pcReg (s.pc + 1))
      (x := pcReg) r (by simpa using hm)
    refine ⟨t, he, by simpa [reg_setReg_ne s _ hr.symm] using hcell, ?_⟩
    rw [State.pc, hpc, reg_setReg_self]

/-! ## The stack -/

/-- A pop whose mode uses the address of the push and turns its modification back. -/
theorem pop_after_push {s : State} {r p : Reg} {push pop : Mode} {a after : Word} (q : Reg)
    (pc' : Word) (hp : p ≠ pcReg) (hq : q ≠ p) (hm : s.mapped p a = true)
    (hpush : storesAt (exec (.store r push p) s) s r p a after)
    (ha : modeAddress pop after = some a)
    (hback : ∀ t : State, t.reg p = after → (modeModify pop p t).reg p = s.reg p) :
    ∃ t u, exec (.store r push p) s = .next t ∧
      exec (.load q pop p) (t.setReg pcReg pc') = .next u ∧
      u.reg q = s.reg r ∧ u.reg p = s.reg p := by
  obtain ⟨t, ht, hcell, -, hafter, -, -, htags, hparams⟩ := hpush
  have hreg : (t.setReg pcReg pc').reg p = after := by rw [reg_setReg_ne t _ hp.symm, hafter]
  have hmt : (t.setReg pcReg pc').mapped p a = true := by
    rw [setReg_mapped, mapped_of_same htags hparams, hm]
  obtain ⟨u, hu, hq', hp', -⟩ := loadsAt_exec q (by rw [hreg]; exact ha) hmt (hback _ hreg)
  refine ⟨t, u, ht, hu, ?_, hp' hq.symm⟩
  rw [hq', setReg_cell, setReg_place, place_of_same htags hparams, hcell]

/-- Settles O26: the pop's address is the push's, and its modification the inverse. -/
theorem pushThenPopRestores : Obligations.PushThenPopRestores := by
  unfold Obligations.PushThenPopRestores
  refine fun s r q p pc' hp hq => ⟨fun hm => ?_, fun hm => ?_⟩
  · refine pop_after_push q pc' hp hq hm (storesAt_autoInc r hm) ?_ fun t ht => ?_
    · simp [modeAddress]
    · simp [modeModify_autoDec, ht]
  · refine pop_after_push q pc' hp hq hm (storesAt_autoDec r hm) rfl fun t ht => ?_
    simp [modeModify_autoInc, ht]

/-! ## A jump to itself -/

theorem runsFor_of_step_self {s : State} (h : step s = .next s) (k : Nat) : runsFor k s := by
  induction k with
  | zero => trivial
  | succ k ih => exact ⟨s, h, ih⟩

/-- Settles O27: the `store` writes the pc back to where it was. -/
theorem jumpToItselfNeverStops : Obligations.JumpToItselfNeverStops := by
  unfold Obligations.JumpToItselfNeverStops
  intro s r hr hreg h
  have hself : step s = .next s := by
    rw [step_store_register (x := pcReg) h, reg_setReg_ne s _ hr.symm, hreg, setReg_setReg]
    exact congrArg _ (setReg_reg_self s pcReg)
  exact ⟨hself, runsFor_of_step_self hself⟩

/-! ## The assembled `loadi` -/

/-- The 4-trit field of a constant in its range extends to the constant. -/
theorem sext4_of_field {k : Int} {f : Fin 81} (hk : -40 ≤ k ∧ k ≤ 40)
    (hf : f.val = (k % 81).toNat) : sext4 f = Word.ofInt k := by
  apply sv_injective
  rw [sv_sext4, sv_ofInt (by omega)]
  split_ifs <;> omega

section assembled
variable {s : State} {r : Reg} {k : Int}

theorem assembleLoadi_short (r : Reg) (hk : -40 ≤ k ∧ k ≤ 40) :
    assembleLoadi r k = [wordOfFields 24 r (k % 81).toNat] := if_pos hk

theorem assembleLoadi_long (r : Reg) (hk : ¬ (-40 ≤ k ∧ k ≤ 40)) :
    assembleLoadi r k = [wordOfFields 25 r (Mode.autoInc.field * 9 + pcReg.val), Word.ofInt k] :=
  if_neg hk

/-- The state that both assembled forms leave, with `n` the number of their words. -/
def loadedConstant (s : State) (r : Reg) (k : Int) (n : Nat) : State :=
  ((s.setReg pcReg (s.pc + Word.ofNat n)).setReg r (Word.ofInt k)).setCC (loadCC (Word.ofInt k))

theorem step_loadi_word (hk : -40 ≤ k ∧ k ≤ 40)
    (h : s.readVia pcReg s.pc = some (wordOfFields 24 r (k % 81).toNat)) :
    step s = .next (loadedConstant s r k 1) := by
  obtain ⟨hop, hr, haddr, -, -⟩ :=
    fields_wordOfFields (op := 24) (addr := (k % 81).toNat) r (by omega) (by omega)
  rw [step_of_opField_eq_24 h hop, exec_loadi, hr, sext4_of_field hk haddr]
  rfl

theorem step_load_autoInc_pc
    (h : s.readVia pcReg s.pc = some (wordOfFields 25 r (Mode.autoInc.field * 9 + pcReg.val)))
    (h2 : s.readVia pcReg (s.pc + 1) = some (Word.ofInt k)) :
    step s = .next (loadedConstant s r k 2) := by
  obtain ⟨hm, hcell⟩ := readVia_eq_some.1 h2
  have hload := exec_load_mapped (s := s.setReg pcReg (s.pc + 1)) (r := r) (x := pcReg)
    (m := .autoInc) (a := s.pc + 1) (by simp [modeAddress]) (by simpa using hm)
  have hmod : modeModify .autoInc pcReg (s.setReg pcReg (s.pc + 1)) =
      s.setReg pcReg (s.pc + Word.ofNat 2) := by
    rw [modeModify, reg_setReg_self, setReg_setReg, add_assoc]
    rfl
  rw [step_transfer_one (.inr rfl) (by simp) h, loadedConstant, ← hmod]
  simpa [hcell] using hload

/-- The step at the words that the assembler makes of `loadi r,k`. -/
theorem step_assembleLoadi (h : ∀ (j : Nat) (w : Word), (assembleLoadi r k)[j]? = some w →
      s.readVia pcReg (s.pc + Word.ofNat j) = some w) :
    step s = .next (loadedConstant s r k (assembleLoadi r k).length) := by
  have hpc : s.pc + Word.ofNat 0 = s.pc := add_zero s.pc
  by_cases hk : -40 ≤ k ∧ k ≤ 40
  · rw [assembleLoadi_short r hk] at h ⊢
    exact step_loadi_word hk (hpc ▸ h 0 _ rfl)
  · rw [assembleLoadi_long r hk] at h ⊢
    exact step_load_autoInc_pc (hpc ▸ h 0 _ rfl) (h 1 _ rfl)

end assembled

/-- Settles O28: both forms write the pc past their words, then the constant and its report. -/
theorem assembledLoadiLoadsTheConstant : Obligations.AssembledLoadiLoadsTheConstant := by
  unfold Obligations.AssembledLoadiLoadsTheConstant
  intro s r k h
  refine ⟨_, step_assembleLoadi h, ?_, fun hr => ?_, fun i hi => ?_, rfl, rfl, rfl, ⟨rfl, rfl⟩,
    fun _ => rfl⟩
  · simp [loadedConstant]
  · rw [loadedConstant, setCC_pc, pc_setReg_ne _ _ hr, pc_setReg_pc]
  · simp only [List.mem_cons, List.not_mem_nil, or_false, not_or] at hi
    rw [loadedConstant, setCC_reg, reg_setReg_ne _ _ (Ne.symm hi.1),
      reg_setReg_ne _ _ (Ne.symm hi.2)]

end Sys2Proof.Machine
end

section
/-! PROOFS. The terms below the frontier (42_legacy_operands.md, 43_arithmetic.md, 44_shifts.md):
the result and the flags of each operation, what a term leaves, pairs of terms on pairs of
registers, and the faults of starred operands. -/

namespace Sys2Proof.Machine

/-! ## The results and flags of the operations -/

section operations
variable (d v : Word) (k : Trit)

/-- The adder's output by value (R110). -/
theorem adder_eq :
    adder d v k.val = (Word.ofNat (d.val + v.val + k.val),
      if d.val + v.val + k.val < 19683 then 0
      else if d.val + v.val + k.val < 39366 then 1 else 2) := by
  have hd := d.isLt
  have hv := v.isLt
  have hk := k.isLt
  unfold adder
  congr 1
  apply Fin.ext
  simp only [Fin.ofNat]
  split_ifs <;> simp <;> omega

theorem addcOp_eq :
    addcOp k d v = (Word.ofNat (d.val + v.val + k.val),
      { s := sign3 (Word.ofNat (d.val + v.val + k.val))
        v := overflow (sv d + sv v + (k.val : Int))
        c := if d.val + v.val + k.val < 19683 then 0
          else if d.val + v.val + k.val < 39366 then 1 else 2 }) := by
  rw [addcOp, adder_eq]; rfl

theorem subbOp_eq :
    subbOp k d v = (Word.ofInt ((d.val : Int) - v.val - 1 + k.val),
      { s := sign3 (Word.ofInt ((d.val : Int) - v.val - 1 + k.val))
        v := overflow (sv d - sv v - 1 + (k.val : Int))
        c := if d.val + k.val < v.val + 1 then 0
          else if d.val + k.val < v.val + 1 + 19683 then 1 else 2 }) := by
  rw [subbOp, adder_cmp3]; rfl

/-- R111: `add` is `addc` with no carry. -/
theorem addOp_eq_addcOp : addOp d v = addcOp 0 d v := by
  simp [addOp, addcOp]

/-- R112: `sub` is `subb` with no borrow. -/
theorem subOp_eq_subbOp : subOp d v = subbOp 1 d v := by
  simp [subOp, subbOp]

/-- Two words without a carry sum to less than twice 3^9, so the carry out is 0 or 1. -/
theorem addOp_eq :
    addOp d v = (Word.ofNat (d.val + v.val),
      { s := sign3 (Word.ofNat (d.val + v.val))
        v := overflow (sv d + sv v)
        c := if 19683 ≤ d.val + v.val then 1 else 0 }) := by
  have hd := d.isLt
  have hv := v.isLt
  rw [addOp_eq_addcOp, addcOp_eq]
  simp only [Fin.val_zero, Nat.cast_zero, add_zero]
  congr 2
  rcases Nat.lt_or_ge (d.val + v.val) 19683 with hlt | hge
  · rw [if_pos hlt, if_neg (by omega)]
  · rw [if_neg (by omega), if_pos (by omega), if_pos hge]

theorem ofInt_sub : Word.ofInt ((d.val : Int) - v.val) = d - v := by
  apply Fin.ext
  have hval := ofInt_val ((d.val : Int) - v.val)
  have hd := d.isLt
  have hv := v.isLt
  rw [sub_val]
  omega

/-- Without a borrow coming in, the carry is 1 or, where one is needed, 0. -/
theorem subOp_eq :
    subOp d v = (d - v,
      { s := sign3 (d - v)
        v := overflow (sv d - sv v)
        c := if v.val ≤ d.val then 1 else 0 }) := by
  have hd := d.isLt
  have hv := v.isLt
  have hword : (d.val : Int) - v.val - 1 + (1 : Trit).val = d.val - v.val := by simp
  rw [subOp_eq_subbOp, subbOp_eq, hword, ofInt_sub]
  simp only [Fin.val_one, Nat.cast_one, sub_add_cancel]
  congr 2
  rcases Nat.lt_or_ge d.val v.val with hlt | hge
  · rw [if_pos (by omega), if_neg (by omega)]
  · rw [if_neg (by omega), if_pos (by omega), if_pos hge]

end operations

/-! ## The four data terms -/

/-- Settles O29: the term by its operation, whose result and flags are `addOp_eq`. -/
theorem addSumsAndReports : Obligations.AddSumsAndReports := by
  unfold Obligations.AddSumsAndReports
  intro s a src dst v d hok hv hd
  have hterm := termLeaves_runData (f := addOp) hok hv hd
  rwa [addOp_eq] at hterm

/-- Settles O30: the term by its operation, whose result and flags are `subOp_eq`. -/
theorem subDiffersAndReports : Obligations.SubDiffersAndReports := by
  unfold Obligations.SubDiffersAndReports
  intro s a src dst v d hok hv hd
  have hterm := termLeaves_runData (f := subOp) hok hv hd
  rwa [subOp_eq] at hterm

/-- Settles O31: the term by its operation on the carry trit as it stands. -/
theorem addcAddsTheCarryTrit : Obligations.AddcAddsTheCarryTrit := by
  unfold Obligations.AddcAddsTheCarryTrit
  intro s a src dst v d hok hv hd
  have hterm := termLeaves_runCarry (f := addcOp s.cc.c) hok hv hd
  rwa [addcOp_eq] at hterm

/-- Settles O32: the term by its operation on the carry trit as it stands. -/
theorem subbTakesTheBorrow : Obligations.SubbTakesTheBorrow := by
  unfold Obligations.SubbTakesTheBorrow
  intro s a src dst v d hok hv hd
  have hterm := termLeaves_runCarry (f := subbOp s.cc.c) hok hv hd
  rwa [subbOp_eq] at hterm

/-! ## The starred register of `add` -/

theorem ofNat_add_val (d v : Word) : Word.ofNat (d.val + v.val) = d + v := rfl

section starred
variable {s : State} {a : Suffix} {r q : Reg}

/-- With the word at its address as the source, `add` leaves the sum in `q` and in `r` what the
suffix says. -/
theorem add_star_source (hq : q ≠ r) (hm : s.mapped r (suffixAddress a (s.reg r)) = true) :
    ∃ t, exec (.add a (.star r) (.reg q)) s = .next t ∧ t.reg r = suffixAfter a (s.reg r) ∧
      t.reg q = s.reg q + s.cell (s.place r (suffixAddress a (s.reg r))) := by
  have hok : dataOk s.params.legacyConst a (.star r) (.reg q) = true := by cases a <;> rfl
  have hv := (operandIs_star a s r _).2 (readVia_mapped hm)
  refine ⟨_, runData_next addOp hok hv (d := s.reg q) rfl, ?_, ?_⟩
  · rw [written_reg, if_neg (by simpa using hq), bump_bump_reg (by cases a <;> rfl),
      if_pos (.inl rfl)]
  · rw [written_reg, if_pos rfl, addOp_eq, ofNat_add_val]

/-- With the word at its address as the destination, `add` leaves the sum there. -/
theorem add_star_destination (hm : s.mapped r (suffixAddress a (s.reg r)) = true) :
    ∃ t, exec (.add a (.reg q) (.star r)) s = .next t ∧ t.reg r = suffixAfter a (s.reg r) ∧
      t.cell (s.place r (suffixAddress a (s.reg r))) =
        s.cell (s.place r (suffixAddress a (s.reg r))) + s.reg q := by
  have hok : dataOk s.params.legacyConst a (.reg q) (.star r) = true := by cases a <;> rfl
  have hd := (operandIs_star a s r _).2 (readVia_mapped hm)
  refine ⟨_, runData_next addOp hok (v := s.reg q) rfl hd, ?_, ?_⟩
  · rw [written_reg, if_neg (by simp), bump_bump_reg (by cases a <;> rfl), if_pos (.inr rfl)]
  · simp only [written_cell, if_true, addOp_eq, ofNat_add_val]

end starred

/-- Settles O60: each suffix, on a starred source and on a starred destination. -/
theorem suffixModifiesTheStarredRegister : Obligations.SuffixModifiesTheStarredRegister := by
  unfold Obligations.SuffixModifiesTheStarredRegister
  exact fun s r q hq => ⟨fun hm => ⟨add_star_source (a := .plain) hq hm,
      add_star_source (a := .inc) hq hm, add_star_destination (a := .plain) hm,
      add_star_destination (a := .inc) hm⟩,
    fun hm => ⟨add_star_source (a := .dec) hq hm, add_star_destination (a := .dec) hm⟩⟩

/-- Settles O35: the pc is read before the result is written to it. -/
theorem pcRelativeAddReachesItsTarget : Obligations.PcRelativeAddReachesItsTarget := by
  unfold Obligations.PcRelativeAddReachesItsTarget
  refine fun s target => ⟨fun hk => ?_, fun hr => ?_⟩
  · have hok : dataOk s.params.legacyConst .plain (.const (target - s.pc)) (.reg pcReg) = true := by
      simp [dataOk, suffixOk, Operand.constOk, hk]
    refine ⟨_, runData_next addOp hok rfl rfl, ?_, ?_⟩
    · rw [State.pc, written_reg, if_pos rfl, addOp_eq, ofNat_add_val]
      exact add_sub_cancel _ _
    · rw [written_cc, addOp_eq, ofNat_add_val]
      exact congrArg sign3 (add_sub_cancel _ _)
  · refine ⟨_, runData_next (a := .inc) (src := .star pcReg) (dst := .reg pcReg) addOp rfl hr rfl,
      ?_, ?_⟩
    · rw [State.pc, written_reg, if_pos rfl, addOp_eq, ofNat_add_val]
      exact add_sub_cancel _ _
    · rw [written_cc, addOp_eq, ofNat_add_val]
      exact congrArg sign3 (add_sub_cancel _ _)

/-! ## Pairs of registers -/

section pairs
variable (s : State) (a c : Reg)

/-- A data term between two registers writes one register and the flags. -/
theorem runData_regs (f : Word → Word → Word × CC) :
    runData f .plain (.reg a) (.reg c) s =
      .next ((s.setReg c (f (s.reg c) (s.reg a)).1).setCC (f (s.reg c) (s.reg a)).2) := rfl

theorem runCarry_regs (f : Word → Word → Word × CC) :
    runCarry f .plain (.reg a) (.reg c) s =
      .next ((s.setReg c (f (s.reg c) (s.reg a)).1).setCC (f (s.reg c) (s.reg a)).2) := rfl

end pairs

/-- The state that an operation leaves on the low words and then one on the high words, which sees
the flags of the first, with the pc moved between the two. -/
def pairState (f : Word → Word → Word × CC) (g : Trit → Word → Word → Word × CC) (s : State)
    (a b c d : Reg) (pc' : Word) : State :=
  let low := f (s.reg c) (s.reg a)
  let high := g low.2.c (s.reg d) (s.reg b)
  ((((s.setReg c low.1).setCC low.2).setReg pcReg pc').setReg d high.1).setCC high.2

section pairState
variable {f : Word → Word → Word × CC} {g : Trit → Word → Word → Word × CC} {s : State}
  {a b c d : Reg} {pc' : Word}

/-- Two terms on two pairs of registers, where the second's operands are not the first's
destination. -/
theorem run_pair (hcb : c ≠ b) (hcd : c ≠ d) (hb : b ≠ pcReg) (hd : d ≠ pcReg) :
    ∃ t, runData f .plain (.reg a) (.reg c) s = .next t ∧
      runCarry (g t.cc.c) .plain (.reg b) (.reg d) (t.setReg pcReg pc') =
        .next (pairState f g s a b c d pc') := by
  refine ⟨_, runData_regs s a c f, ?_⟩
  rw [runCarry_regs, reg_setReg_ne _ _ hd.symm, reg_setReg_ne _ _ hb.symm, setCC_reg, setCC_reg,
    reg_setReg_ne _ _ hcd, reg_setReg_ne _ _ hcb]
  rfl

theorem pairState_low (hcd : c ≠ d) (hc : c ≠ pcReg) :
    (pairState f g s a b c d pc').reg c = (f (s.reg c) (s.reg a)).1 := by
  rw [pairState, setCC_reg, reg_setReg_ne _ _ hcd.symm, reg_setReg_ne _ _ hc.symm, setCC_reg,
    reg_setReg_self]

theorem pairState_high :
    (pairState f g s a b c d pc').reg d =
      (g (f (s.reg c) (s.reg a)).2.c (s.reg d) (s.reg b)).1 := by
  rw [pairState, setCC_reg, reg_setReg_self]

theorem pairState_carry :
    (pairState f g s a b c d pc').cc.c =
      (g (f (s.reg c) (s.reg a)).2.c (s.reg d) (s.reg b)).2.c := rfl

end pairState

/-- The sum and the carry of `addc` hold the exact sum. -/
theorem addcOp_exact (d v : Word) (k : Trit) :
    (addcOp k d v).1.val + (addcOp k d v).2.c.val * 19683 = d.val + v.val + k.val := by
  have hd := d.isLt
  have hv := v.isLt
  have hk := k.isLt
  rw [addcOp_eq]
  simp only [ofNat_val]
  split_ifs <;> simp <;> omega

theorem addOp_exact (d v : Word) :
    (addOp d v).1.val + (addOp d v).2.c.val * 19683 = d.val + v.val := by
  rw [addOp_eq_addcOp]
  exact addcOp_exact d v 0

/-- The difference and the carry of `subb`, 1 where nothing was borrowed, hold the exact
difference. -/
theorem subbOp_exact (d v : Word) (k : Trit) :
    ((subbOp k d v).1.val : Int) + ((subbOp k d v).2.c.val - 1) * 19683 =
      d.val - v.val - 1 + k.val := by
  have hd := d.isLt
  have hv := v.isLt
  have hk := k.isLt
  have hval := ofInt_val ((d.val : Int) - v.val - 1 + k.val)
  rw [subbOp_eq]
  simp only [hval]
  split_ifs <;> simp <;> omega

theorem subOp_exact (d v : Word) :
    ((subOp d v).1.val : Int) + ((subOp d v).2.c.val - 1) * 19683 = d.val - v.val := by
  have hexact := subbOp_exact d v 1
  rw [subOp_eq_subbOp, hexact]
  simp

/-- Settles O33: the low sum's carry enters the high sum. -/
theorem eighteenTritAdd : Obligations.EighteenTritAdd := by
  unfold Obligations.EighteenTritAdd
  intro s a b c d pc' hcb hcd hb hc hd
  obtain ⟨t, ht, hu⟩ := run_pair (f := addOp) (g := addcOp) (s := s) (a := a) (pc' := pc')
    hcb hcd hb hd
  refine ⟨t, _, ht, hu, ?_⟩
  have hlow := addOp_exact (s.reg c) (s.reg a)
  have hhigh := addcOp_exact (s.reg d) (s.reg b) (addOp (s.reg c) (s.reg a)).2.c
  rw [pairState_low hcd hc, pairState_high, pairState_carry]
  omega

/-- Settles O34: the low difference's borrow enters the high difference. -/
theorem eighteenTritSubtract : Obligations.EighteenTritSubtract := by
  unfold Obligations.EighteenTritSubtract
  intro s a b c d pc' hcb hcd hb hc hd
  obtain ⟨t, ht, hu⟩ := run_pair (f := subOp) (g := subbOp) (s := s) (a := a) (pc' := pc')
    hcb hcd hb hd
  refine ⟨t, _, ht, hu, ?_⟩
  have hlow := subOp_exact (s.reg c) (s.reg a)
  have hhigh := subbOp_exact (s.reg d) (s.reg b) (subOp (s.reg c) (s.reg a)).2.c
  rw [pairState_low hcd hc, pairState_high, pairState_carry]
  omega

/-! ## The shifts -/

theorem slOp_eq (k : Nat) (d : Word) :
    slOp k d = (Word.ofNat (d.val * 3 ^ k),
      { s := sign3 (Word.ofNat (d.val * 3 ^ k))
        v := if sv (Word.ofNat (d.val * 3 ^ k)) = sv d * 3 ^ k then 0 else 1
        c := trit d (9 - k) }) := by
  simp [slOp, ite_not, eq_comm]

/-- Settles O36: the shift by its operation, on the count spelled out. -/
theorem slMultipliesAndReports : Obligations.SlMultipliesAndReports := by
  unfold Obligations.SlMultipliesAndReports
  intro s n k dst d hk hok hd
  obtain rfl : k = shiftCount n := hk
  have hterm := termLeaves_runShift (f := slOp (shiftCount n)) hok hd
  rwa [slOp_eq] at hterm

/-- A quotient by 3 or more is at most 6560, and its sign trit is 0 or 1. -/
theorem div_pow_le (d : Word) {k : Nat} (hk : 1 ≤ k) : d.val / 3 ^ k ≤ 6560 := by
  have hd := d.isLt
  have hpow : 3 ^ 1 ≤ 3 ^ k := Nat.pow_le_pow_right (by omega) hk
  have hle := Nat.div_le_div_left (a := d.val) hpow (by omega)
  omega

theorem sign3_ofNat_of_le {n : Nat} (h : n ≤ 9841) :
    sign3 (Word.ofNat n) = if n = 0 then 0 else 1 := by
  have hval : (Word.ofNat n).val = n := Nat.mod_eq_of_lt (by omega)
  rw [sign3, hval, if_pos h]

/-- Settles O37: the quotient is too small for the sign trit to be 2. -/
theorem sruDividesAndReports : Obligations.SruDividesAndReports := by
  unfold Obligations.SruDividesAndReports
  intro s n k dst d hk hok hd
  obtain rfl : k = shiftCount n := hk
  have hle := div_pow_le d (shiftCount_range n).1
  refine ⟨hle, ?_⟩
  have hterm := termLeaves_runShift (f := sruOp (shiftCount n)) hok hd
  rwa [sruOp, inexact_eq, sign3_ofNat_of_le (by omega)] at hterm

/-- The floor of a signed value's quotient is in the signed range. -/
theorem sv_ediv_range (d : Word) (k : Nat) : -9841 ≤ sv d / 3 ^ k ∧ sv d / 3 ^ k ≤ 9841 := by
  have hrange := sv_range d
  have hpow : (1 : Int) ≤ 3 ^ k := one_le_pow₀ (by omega)
  constructor
  · rw [Int.le_ediv_iff_mul_le (by omega)]
    nlinarith
  · exact Int.ediv_le_of_le_mul (by omega) (by nlinarith)

/-- Settles O38: the floor is the signed value of the word made from it. -/
theorem srsDividesSignedAndReports : Obligations.SrsDividesSignedAndReports := by
  unfold Obligations.SrsDividesSignedAndReports
  intro s n k dst d hk hok hd
  obtain rfl : k = shiftCount n := hk
  refine ⟨Word.ofInt (sv d / 3 ^ shiftCount n), sv_ofInt (sv_ediv_range d _), ?_⟩
  have hterm := termLeaves_runShift (f := srsOp (shiftCount n)) hok hd
  rwa [srsOp, inexact_eq] at hterm

/-! ## Starred operands outside MEM_MAP -/

section starFaults
variable {s : State} {a : Suffix} {src dst : Operand} {r : Reg} {v : Word}

/-- A carry term whose starred destination is outside MEM_MAP faults with the address it uses. -/
theorem runCarry_dst_fault (f : Word → Word → Word × CC)
    (hok : carryOk s.params.legacyConst a src (.star r) = true) (hv : operandIs a s src v)
    (hm : s.mapped r (suffixAddress a (s.reg r)) = false) :
    runCarry f a src (.star r) s = .fault (.unmappedAddress (suffixAddress a (s.reg r))) := by
  simp only [carryOk, Bool.and_eq_true] at hok
  rw [runCarry_eq, if_pos hok.1]
  exact runData_dst_fault f hok.2 hv hm

theorem runShift_dst_fault (f : Word → Word × CC) (hm : s.mapped r (s.reg r) = false) :
    runShift f .plain (.star r) s = .fault (.unmappedAddress (s.reg r)) :=
  updateDst_fault (a := .plain) f s hm

end starFaults

/-- Settles O23: the transfers, a starred source, a starred destination and the shifts. -/
theorem unmappedOperandFaults : Obligations.UnmappedOperandFaults := by
  unfold Obligations.UnmappedOperandFaults
  refine ⟨fun s r x m a ha hm => ⟨exec_store_unmapped ha hm, exec_load_unmapped ha hm⟩,
    fun s a r dst e he hm => ?_, fun s a src r v e hv he hm => ?_,
    fun s n r hm => ⟨runShift_dst_fault _ hm, runShift_dst_fault _ hm, runShift_dst_fault _ hm⟩⟩
  · obtain rfl : e = suffixAddress a (s.reg r) := by rw [he, suffixAddress_eq]
    exact ⟨fun hok => runData_source_fault _ hok hm, fun hok => runData_source_fault _ hok hm⟩
  · obtain rfl : e = suffixAddress a (s.reg r) := by rw [he, suffixAddress_eq]
    exact ⟨fun hok => runData_dst_fault _ hok hv hm, fun hok => runData_dst_fault _ hok hv hm,
      fun hok => runCarry_dst_fault _ hok hv hm, fun hok => runCarry_dst_fault _ hok hv hm⟩

end Sys2Proof.Machine
end

section
/-! PROOFS. The conditional branches (45_branches.md): where each goes by its condition, and what
the comparison branches say after a `sub`. -/

namespace Sys2Proof.Machine

/-! ## A branch by its condition -/

/-- The branch `i` tests `test` on the flags. -/
def testsFlags (i : Word → Instr) (test : CC → Bool) : Prop :=
  ∀ (target : Word) (s : State), exec (i target) s = branchIf (test s.cc) target s

section branch
variable {i : Word → Instr} {test : CC → Bool}

theorem exec_taken (hi : testsFlags i test) {s : State} (h : test s.cc = true) (target : Word) :
    exec (i target) s = .next (s.setReg pcReg target) := by
  rw [hi, h]; rfl

theorem exec_not_taken (hi : testsFlags i test) {s : State} (h : test s.cc = false)
    (target : Word) : exec (i target) s = .next s := by
  rw [hi, h]; rfl

/-- A branch whose test decides the condition goes where the condition says. -/
theorem branchesOn_of_test {cond : CC → Prop} (hi : testsFlags i test)
    (hc : ∀ k, test k = true ↔ cond k) : branchesOn i cond := by
  intro target s
  cases ht : test s.cc with
  | true =>
    have hcond : cond s.cc := (hc _).1 ht
    refine ⟨_, exec_taken hi ht target, fun _ => pc_setReg_pc s target, fun hn => absurd hcond hn,
      fun j hj => ?_, rfl, ⟨rfl, rfl⟩, fun _ => rfl⟩
    exact reg_setReg_ne s _ (by simpa [eq_comm] using hj)
  | false =>
    have hcond : ¬ cond s.cc := fun h => by simp [(hc _).2 h] at ht
    exact ⟨s, exec_not_taken hi ht target, fun h => absurd h hcond, fun _ => rfl, fun _ _ => rfl,
      rfl, ⟨rfl, rfl⟩, fun _ => rfl⟩

/-- A branch whose test decides the relation is taken exactly when it holds. -/
theorem takenIff_of_test {s : State} {rel : Prop} (hi : testsFlags i test)
    (hc : test s.cc = true ↔ rel) : takenIff i s rel := by
  intro target
  refine ⟨fun h => exec_taken hi (hc.2 h) target, fun h => exec_not_taken hi ?_ target⟩
  rw [← Bool.not_eq_true, hc]
  exact h

end branch

/-- Settles O40: each test decides its condition. -/
theorem signBranchesTestTheSign : Obligations.SignBranchesTestTheSign := by
  unfold Obligations.SignBranchesTestTheSign
  exact ⟨branchesOn_of_test (test := condBeq) (fun _ _ => rfl) fun k => decide_eq_true_iff,
    branchesOn_of_test (test := condBne) (fun _ _ => rfl) fun k => decide_eq_true_iff,
    branchesOn_of_test (test := condBpos) (fun _ _ => rfl) fun k => decide_eq_true_iff,
    branchesOn_of_test (test := condBnpos) (fun _ _ => rfl) fun k => decide_eq_true_iff,
    branchesOn_of_test (test := condBneg) (fun _ _ => rfl) fun k => decide_eq_true_iff⟩

/-- Settles O41: each test decides its condition. -/
theorem signedBranchesTestSignAndOverflow : Obligations.SignedBranchesTestSignAndOverflow := by
  unfold Obligations.SignedBranchesTestSignAndOverflow
  exact ⟨branchesOn_of_test (test := condBlts) (fun _ _ => rfl) fun k => decide_eq_true_iff,
    branchesOn_of_test (test := condBles) (fun _ _ => rfl)
      fun k => decide_eq_true_iff.trans or_assoc.symm,
    branchesOn_of_test (test := condBges) (fun _ _ => rfl)
      fun k => decide_eq_true_iff.trans or_assoc.symm,
    branchesOn_of_test (test := condBgts) (fun _ _ => rfl) fun k => decide_eq_true_iff⟩

/-- Settles O42: each test decides its condition. -/
theorem unsignedBranchesTestTheCarry : Obligations.UnsignedBranchesTestTheCarry := by
  unfold Obligations.UnsignedBranchesTestTheCarry
  exact ⟨branchesOn_of_test (test := condBltu) (fun _ _ => rfl) fun k => decide_eq_true_iff,
    branchesOn_of_test (test := condBleu) (fun _ _ => rfl) fun k => decide_eq_true_iff,
    branchesOn_of_test (test := condBgeu) (fun _ _ => rfl) fun k => decide_eq_true_iff,
    branchesOn_of_test (test := condBgtu) (fun _ _ => rfl) fun k => decide_eq_true_iff⟩

/-- Settles O43: each test decides its condition. -/
theorem overflowAndNonNegativeBranches : Obligations.OverflowAndNonNegativeBranches := by
  unfold Obligations.OverflowAndNonNegativeBranches
  exact ⟨branchesOn_of_test (test := condBvr) (fun _ _ => rfl) fun k => decide_eq_true_iff,
    branchesOn_of_test (test := condBvs) (fun _ _ => rfl) fun k => decide_eq_true_iff,
    branchesOn_of_test (test := condBnneg) (fun _ _ => rfl) fun k => decide_eq_true_iff⟩

/-! ## The flags of a `sub` as a comparison -/

section comparison
variable (d v : Word)

theorem overflow_eq_zero_iff (E : Int) : overflow E = 0 ↔ -9841 ≤ E ∧ E ≤ 9841 := by
  unfold overflow
  split_ifs <;> simp <;> omega

theorem overflow_eq_one_iff (E : Int) : overflow E = 1 ↔ E < -9841 ∨ 9841 < E := by
  unfold overflow
  split_ifs <;> simp <;> omega

/-- The signed difference and the difference of the signed values are equal modulo 3^9. -/
theorem sv_sub_cases :
    sv (d - v) = sv d - sv v ∨ sv (d - v) = sv d - sv v + 19683 ∨
      sv (d - v) = sv d - sv v - 19683 := by
  have hd := d.isLt
  have hv := v.isLt
  unfold sv
  rw [sub_val]
  split_ifs <;> omega

/-- The sign trit is 0 exactly for equal values. -/
theorem subOp_s_eq_zero_iff : (subOp d v).2.s = 0 ↔ d = v := by
  rw [subOp_eq, sign3_eq_zero_iff, Fin.val_eq_zero_iff, sub_eq_zero]

/-- The carry is 0 exactly where the unsigned difference needs a borrow. -/
theorem subOp_c_eq_zero_iff : (subOp d v).2.c = 0 ↔ d.val < v.val := by
  rw [subOp_eq]
  split_ifs with h <;> simp <;> omega

/-- The sign of the exact difference: that of the result, turned round where it overflows. -/
theorem subOp_lt_iff :
    ((subOp d v).2.s = 2 ∧ (subOp d v).2.v = 0 ∨ (subOp d v).2.s = 1 ∧ (subOp d v).2.v = 1) ↔
      sv d < sv v := by
  have hcases := sv_sub_cases d v
  have hrange := sv_range (d - v)
  have hd := sv_range d
  have hv := sv_range v
  rw [subOp_eq, sign3_eq_two_iff, sign3_eq_one_iff, overflow_eq_zero_iff, overflow_eq_one_iff,
    ← sv_neg_iff, ← sv_pos_iff]
  omega

theorem subOp_gt_iff :
    ((subOp d v).2.s = 1 ∧ (subOp d v).2.v = 0 ∨ (subOp d v).2.s = 2 ∧ (subOp d v).2.v = 1) ↔
      sv v < sv d := by
  have hcases := sv_sub_cases d v
  have hrange := sv_range (d - v)
  have hd := sv_range d
  have hv := sv_range v
  rw [subOp_eq, sign3_eq_two_iff, sign3_eq_one_iff, overflow_eq_zero_iff, overflow_eq_one_iff,
    ← sv_neg_iff, ← sv_pos_iff]
  omega

end comparison

/-- Settles O44: the flags of `sub` decide equality and the two strict orders, and the other
relations are made of these. -/
theorem branchesReportTheComparison : Obligations.BranchesReportTheComparison := by
  unfold Obligations.BranchesReportTheComparison
  intro s a src dst v d hok hv hd
  refine ⟨_, runData_next subOp hok hv hd, fun pc' => ?_⟩
  have heq := subOp_s_eq_zero_iff d v
  have hltu := subOp_c_eq_zero_iff d v
  have hlt := subOp_lt_iff d v
  have hgt := subOp_gt_iff d v
  have hsv : d = v ↔ sv d = sv v := sv_injective.eq_iff.symm
  have hval : d = v ↔ d.val = v.val := Fin.ext_iff
  refine ⟨takenIff_of_test (test := condBeq) (fun _ _ => rfl) ?_,
    takenIff_of_test (test := condBne) (fun _ _ => rfl) ?_,
    takenIff_of_test (test := condBlts) (fun _ _ => rfl) ?_,
    takenIff_of_test (test := condBles) (fun _ _ => rfl) ?_,
    takenIff_of_test (test := condBges) (fun _ _ => rfl) ?_,
    takenIff_of_test (test := condBgts) (fun _ _ => rfl) ?_,
    takenIff_of_test (test := condBltu) (fun _ _ => rfl) ?_,
    takenIff_of_test (test := condBleu) (fun _ _ => rfl) ?_,
    takenIff_of_test (test := condBgeu) (fun _ _ => rfl) ?_,
    takenIff_of_test (test := condBgtu) (fun _ _ => rfl) ?_⟩ <;>
    rw [setReg_cc, written_cc]
  · exact decide_eq_true_iff.trans heq
  · exact decide_eq_true_iff.trans (not_congr heq)
  · exact decide_eq_true_iff.trans hlt
  · rw [condBles, decide_eq_true_iff, ← or_assoc, hlt, heq, hsv, ← le_iff_lt_or_eq]
  · rw [condBges, decide_eq_true_iff, ← or_assoc, hgt, heq, hsv, eq_comm, ← le_iff_lt_or_eq]
  · exact decide_eq_true_iff.trans hgt
  · exact decide_eq_true_iff.trans hltu
  · rw [condBleu, decide_eq_true_iff, hltu, heq, hval, ← le_iff_lt_or_eq]
  · rw [condBgeu, decide_eq_true_iff, ne_eq, hltu, not_lt]
  · rw [condBgtu, decide_eq_true_iff, ne_eq, ne_eq, hltu, heq, hval]
    omega

end Sys2Proof.Machine
end
